-- ==== Sys2Proof/Word.lean ====
section
/-! DEFINITION. The widths of the machine's data (spec/00_scope.md R3). -/

namespace Sys2Proof

/-- A byte: a general register, a timer, a memory cell, an immediate `NN` (R3, R10, R62). -/
abbrev Byte := BitVec 8

/-- A 16-bit word: an instruction word, `PC`, `I`, a stack slot (R3, R12, R13, R15). -/
abbrev Word := BitVec 16

/-- The 12-bit address field `NNN` (R61). -/
abbrev Addr := BitVec 12

/-- A register number: the field `X` or `Y`. Every value 0 to 15 is legal (R10). -/
abbrev Reg := Fin 16

end Sys2Proof
end

