-- ==== Sys2Proof/Syntax.lean ====
section
/-! DEFINITION. The instructions: one constructor per row of spec/opcode_table.json (spec/30_encoding.md R63). -/

namespace Sys2Proof

/-- The 17 instructions of R63, operands in the order of the fields `X`, `Y`, then the immediate.
The row count of `drw` is a count (R62) and so a Nat; `Instr.wellFormed` bounds it. -/
inductive Instr where
  | ret                                     -- 00EE  RET
  | jp      (nnn : Addr)                    -- 1NNN  JP nnn
  | call    (nnn : Addr)                    -- 2NNN  CALL nnn
  | seVxNn  (x : Reg) (nn : Byte)           -- 3XNN  SE Vx, nn
  | sneVxNn (x : Reg) (nn : Byte)           -- 4XNN  SNE Vx, nn
  | ldVxNn  (x : Reg) (nn : Byte)           -- 6XNN  LD Vx, nn
  | addVxNn (x : Reg) (nn : Byte)           -- 7XNN  ADD Vx, nn
  | ldVxVy  (x y : Reg)                     -- 8XY0  LD Vx, Vy
  | se9VxVy (x y : Reg)                     -- 9XY0  SE9 Vx, Vy
  | ldINnn  (nnn : Addr)                    -- ANNN  LD I, nnn
  | rndVxNn (x : Reg) (nn : Byte)           -- CXNN  RND Vx, nn
  | drw     (x y : Reg) (n : Nat)           -- DXYN  DRW Vx, Vy, n
  | skp     (x : Reg)                       -- EX9E  SKP Vx
  | sknp    (x : Reg)                       -- EXA1  SKNP Vx
  | ldVxDt  (x : Reg)                       -- FX07  LD Vx, DT
  | ldDtVx  (x : Reg)                       -- FX15  LD DT, Vx
  | addIVx  (x : Reg)                       -- FX1E  ADD I, Vx
  deriving DecidableEq, Repr

end Sys2Proof
end

