-- ==== Sys2Proof/WellFormed.lean ====
section
/-! DEFINITION. Which instructions can be written as a word (spec/30_encoding.md R61, R62). -/

namespace Sys2Proof

/-- An instruction is well formed when each operand fits its field. Register numbers, immediates and addresses fit by
their type (R10: every register number is legal); the row count `N` is 4 bits, 0 to 15 (R61, R62). -/
def Instr.wellFormed : Instr → Bool
  | .ret => true
  | .jp _ => true
  | .call _ => true
  | .seVxNn _ _ => true
  | .sneVxNn _ _ => true
  | .ldVxNn _ _ => true
  | .addVxNn _ _ => true
  | .ldVxVy _ _ => true
  | .se9VxVy _ _ => true
  | .ldINnn _ => true
  | .rndVxNn _ _ => true
  | .drw _ _ n => decide (n ≤ 15)
  | .skp _ => true
  | .sknp _ => true
  | .ldVxDt _ => true
  | .ldDtVx _ => true
  | .addIVx _ => true

end Sys2Proof
end

