-- ==== Sys2Proof/Decode.lean ====
section
/-! DEFINITION. Field extraction, the opcode table, the decoder and the encoder (spec/30_encoding.md R60 to R65). -/

namespace Sys2Proof

/-! ### Fields of an instruction word (R61) -/

/-- `OP = w[15:12]`. -/
def fieldOp (w : Word) : BitVec 4 := w.extractLsb' 12 4
/-- `X = w[11:8]`, a register number. -/
def fieldX (w : Word) : Reg := ⟨(w.extractLsb' 8 4).toNat, (w.extractLsb' 8 4).isLt⟩
/-- `Y = w[7:4]`, a register number. -/
def fieldY (w : Word) : Reg := ⟨(w.extractLsb' 4 4).toNat, (w.extractLsb' 4 4).isLt⟩
/-- `N = w[3:0]`, a count. -/
def fieldN (w : Word) : Nat := (w.extractLsb' 0 4).toNat
/-- `NN = w[7:0]`. -/
def fieldNN (w : Word) : Byte := w.extractLsb' 0 8
/-- `NNN = w[11:0]`. -/
def fieldNNN (w : Word) : Addr := w.extractLsb' 0 12

/-! ### The decoder (R64) -/

/-- R64, the two levels of decoding. `none` is `UNRECOGNISED` (R65). -/
def decodeWord (w : Word) : Option Instr :=
  match (fieldOp w).toNat with
  | 0x0 => if w = 0x00EE#16 then some .ret else none
  | 0x1 => some (.jp (fieldNNN w))
  | 0x2 => some (.call (fieldNNN w))
  | 0x3 => some (.seVxNn (fieldX w) (fieldNN w))
  | 0x4 => some (.sneVxNn (fieldX w) (fieldNN w))
  | 0x6 => some (.ldVxNn (fieldX w) (fieldNN w))
  | 0x7 => some (.addVxNn (fieldX w) (fieldNN w))
  | 0x8 => if fieldN w = 0 then some (.ldVxVy (fieldX w) (fieldY w)) else none
  | 0x9 => if fieldN w = 0 then some (.se9VxVy (fieldX w) (fieldY w)) else none
  | 0xA => some (.ldINnn (fieldNNN w))
  | 0xC => some (.rndVxNn (fieldX w) (fieldNN w))
  | 0xD => some (.drw (fieldX w) (fieldY w) (fieldN w))
  | 0xE =>
    if fieldNN w = 0x9E#8 then some (.skp (fieldX w))
    else if fieldNN w = 0xA1#8 then some (.sknp (fieldX w)) else none
  | 0xF =>
    if fieldNN w = 0x07#8 then some (.ldVxDt (fieldX w))
    else if fieldNN w = 0x15#8 then some (.ldDtVx (fieldX w))
    else if fieldNN w = 0x1E#8 then some (.addIVx (fieldX w)) else none
  | _ => none

/-- Why bytes are not an instruction. -/
inductive DecodeReject where
  /-- Fewer than the two bytes every instruction has (R60). -/
  | tooShort
  /-- The word matches no row of the table; the cycle treats it as R86 says, it is not an error. -/
  | unrecognised (w : Word)
  deriving DecidableEq, Repr

/-- The word of two bytes, high byte first (R45, R60). -/
def wordOfBytes (hi lo : Byte) : Word := hi ++ lo

/-- Decode the first instruction of a byte sequence, and answer the bytes after it (R60: always two bytes). -/
def decode : List Byte → Except DecodeReject (Instr × List Byte)
  | hi :: lo :: rest =>
    match decodeWord (wordOfBytes hi lo) with
    | some i => .ok (i, rest)
    | none => .error (.unrecognised (wordOfBytes hi lo))
  | _ => .error .tooShort

/-! ### The opcode table (R63) and the encoder -/

/-- A row of R63: a word is the row's instruction when `w & mask = pattern`. -/
structure Row where
  mnemonic : String
  mask : Word
  pattern : Word
  deriving DecidableEq, Repr

/-- The row of each instruction, copied from R63. -/
def Instr.row : Instr → Row
  | .ret => ⟨"RET", 0xFFFF, 0x00EE⟩
  | .jp _ => ⟨"JP", 0xF000, 0x1000⟩
  | .call _ => ⟨"CALL", 0xF000, 0x2000⟩
  | .seVxNn _ _ => ⟨"SE_VX_NN", 0xF000, 0x3000⟩
  | .sneVxNn _ _ => ⟨"SNE_VX_NN", 0xF000, 0x4000⟩
  | .ldVxNn _ _ => ⟨"LD_VX_NN", 0xF000, 0x6000⟩
  | .addVxNn _ _ => ⟨"ADD_VX_NN", 0xF000, 0x7000⟩
  | .ldVxVy _ _ => ⟨"LD_VX_VY", 0xF00F, 0x8000⟩
  | .se9VxVy _ _ => ⟨"SE9_VX_VY", 0xF00F, 0x9000⟩
  | .ldINnn _ => ⟨"LD_I_NNN", 0xF000, 0xA000⟩
  | .rndVxNn _ _ => ⟨"RND_VX_NN", 0xF000, 0xC000⟩
  | .drw _ _ _ => ⟨"DRW", 0xF000, 0xD000⟩
  | .skp _ => ⟨"SKP", 0xF0FF, 0xE09E⟩
  | .sknp _ => ⟨"SKNP", 0xF0FF, 0xE0A1⟩
  | .ldVxDt _ => ⟨"LD_VX_DT", 0xF0FF, 0xF007⟩
  | .ldDtVx _ => ⟨"LD_DT_VX", 0xF0FF, 0xF015⟩
  | .addIVx _ => ⟨"ADD_I_VX", 0xF0FF, 0xF01E⟩

/-- The 17 rows of R63, in the table's order. -/
def opcodeTable : List Row :=
  [Instr.row .ret, Instr.row (.jp 0), Instr.row (.call 0), Instr.row (.seVxNn 0 0), Instr.row (.sneVxNn 0 0),
   Instr.row (.ldVxNn 0 0), Instr.row (.addVxNn 0 0), Instr.row (.ldVxVy 0 0), Instr.row (.se9VxVy 0 0)] ++
  [Instr.row (.ldINnn 0), Instr.row (.rndVxNn 0 0), Instr.row (.drw 0 0 0), Instr.row (.skp 0), Instr.row (.sknp 0),
   Instr.row (.ldVxDt 0), Instr.row (.ldDtVx 0), Instr.row (.addIVx 0)]

/-- A register number as the 4 bits of its field. -/
def regBits (x : Reg) : BitVec 4 := BitVec.ofNat 4 x.val

/-- A word of the fields `OP`, `NNN` (R61). -/
def wordNNN (op : BitVec 4) (nnn : Addr) : Word := op ++ nnn
/-- A word of the fields `OP`, `X`, `NN` (R61). -/
def wordXNN (op : BitVec 4) (x : Reg) (nn : Byte) : Word := op ++ regBits x ++ nn
/-- A word of the fields `OP`, `X`, `Y`, `N` (R61). -/
def wordXYN (op : BitVec 4) (x y : Reg) (n : Nat) : Word := op ++ regBits x ++ regBits y ++ BitVec.ofNat 4 n

/-- The word of an instruction: its row's fixed digits and its operands at the positions of R61 (R63, R67). -/
def encode : Instr → Word
  | .ret => 0x00EE#16
  | .jp nnn => wordNNN 0x1 nnn
  | .call nnn => wordNNN 0x2 nnn
  | .seVxNn x nn => wordXNN 0x3 x nn
  | .sneVxNn x nn => wordXNN 0x4 x nn
  | .ldVxNn x nn => wordXNN 0x6 x nn
  | .addVxNn x nn => wordXNN 0x7 x nn
  | .ldVxVy x y => wordXYN 0x8 x y 0
  | .se9VxVy x y => wordXYN 0x9 x y 0
  | .ldINnn nnn => wordNNN 0xA nnn
  | .rndVxNn x nn => wordXNN 0xC x nn
  | .drw x y n => wordXYN 0xD x y n
  | .skp x => wordXNN 0xE x 0x9E
  | .sknp x => wordXNN 0xE x 0xA1
  | .ldVxDt x => wordXNN 0xF x 0x07
  | .ldDtVx x => wordXNN 0xF x 0x15
  | .addIVx x => wordXNN 0xF x 0x1E

/-- The high byte, stored at the lower address (R45). -/
def highByte (w : Word) : Byte := w.extractLsb' 8 8
/-- The low byte, stored at the higher address (R45). -/
def lowByte (w : Word) : Byte := w.extractLsb' 0 8

/-- The two bytes of an instruction as memory holds them (R60). -/
def encodeBytes (i : Instr) : List Byte := [highByte (encode i), lowByte (encode i)]

/-- The word whose `nbits` low bits are those of `w`, the rest 0 (spec/opcode_table.json numbers bit 0 as the least
significant bit of the 16-bit word). -/
def tableWord (nbits w : Nat) : Word := BitVec.ofNat 16 (w % 2 ^ nbits)

/-- The decoder on a row's bits, laid out as the hardware stores them: high byte first (R45). -/
def decodeTableWord (nbits w : Nat) : Option Instr :=
  match decode [highByte (tableWord nbits w), lowByte (tableWord nbits w)] with
  | .ok (i, _) => some i
  | .error _ => none

end Sys2Proof
end

