-- ==== Sys2Proof/Config.lean ====
section
/-! DEFINITION. What the platform fixes, and the free values (spec/00_scope.md R3, R4). -/

namespace Sys2Proof.Config

/-- `LOAD_ADDR`: the program load address and the reset value of `PC` (R3, R27). -/
def loadAddr : Nat := 0x200

/-- `MEM_SIZE`: addresses 0x000 to 0xFFF exist (R3, R40). -/
def memSize : Nat := 4096

/-- `FONT`, at its default (R4): the table of spec/70_reset_and_hazards.md R257, 16 glyphs of 5 bytes.
PRESUMED (log entry 1, unsafe): the spec gives this table from general knowledge. -/
def font : List Byte :=
  [0xF0, 0x90, 0x90, 0x90, 0xF0] ++ [0x20, 0x60, 0x20, 0x20, 0x70] ++
  [0xF0, 0x10, 0xF0, 0x80, 0xF0] ++ [0xF0, 0x10, 0xF0, 0x10, 0xF0] ++
  [0x90, 0x90, 0xF0, 0x10, 0x10] ++ [0xF0, 0x80, 0xF0, 0x10, 0xF0] ++
  [0xF0, 0x80, 0xF0, 0x90, 0xF0] ++ [0xF0, 0x10, 0x20, 0x40, 0x40] ++
  [0xF0, 0x90, 0xF0, 0x90, 0xF0] ++ [0xF0, 0x90, 0xF0, 0x10, 0xF0] ++
  [0xF0, 0x90, 0xF0, 0x90, 0x90] ++ [0xE0, 0x90, 0xE0, 0x90, 0xE0] ++
  [0xF0, 0x80, 0x80, 0x80, 0xF0] ++ [0xE0, 0x90, 0x90, 0x90, 0xE0] ++
  [0xF0, 0x80, 0xF0, 0x80, 0xF0] ++ [0xF0, 0x80, 0xF0, 0x80, 0x80]

/-- The free value `key(t, ·)`: the levels of the 16 keypad inputs in cycle `t`, bit `k` for key `k`, under no law
(R4, R162; 93_implementation_defined.md U9). Read only where `State.keyIn` names no level (log entry 3). -/
opaque keypad : Nat → BitVec 16

/-- The free value `rnd(t)`: the byte the random source delivers in cycle `t`, under no law
(R4, R126; 93_implementation_defined.md U8). Read only where `State.rndIn` names no byte (log entry 4). -/
opaque randomByte : Nat → Byte

end Sys2Proof.Config
end

