-- ==== Sys2Proof/Machine/State.lean ====
section
/-! DEFINITION. The state of the machine and its value after reset (spec/10_state.md, spec/60_exceptions.md R224). -/

namespace Sys2Proof.Machine

/-- Why a step could stop with no next state: nothing. Every fault of this hardware (R200, R202) is an
`OutOfRangeFault`, whose entry R204 describes as a state, and `Machine.raise` takes it: a next state with the fault
record written. So no constructor is needed, nobody raises one, and there is nothing to call safe or unsafe
(log entry 2). -/
inductive Fault
  deriving DecidableEq, Repr

/-- Why a step is refused. -/
inductive Refusal where
  /-- Raised by `exec`'s arm of an instruction that has no meaning yet; safe, since such an instruction has no next
  state. No arm of this model answers it. -/
  | notModelled (mnemonic : String)
  deriving DecidableEq, Repr

/-- The seven causes of the `OutOfRangeFault` (R202). -/
inductive Cause where
  | fetchRange
  | dataRange
  | stackOverflow
  | stackUnderflow
  | keyRange
  | indexOverflow
  | displayRange
  deriving DecidableEq, Repr

/-- The fault record (R21). Its elements are the fault outputs of R232, so they are words of the widths given there. -/
structure FaultRecord where
  /-- `FAULT`: a fault has been taken since reset. -/
  fault : Bool
  /-- `FCAUSE`: the cause code 1 to 7, or 0. -/
  fcause : BitVec 3
  /-- `FPC`: the address of the faulting instruction or fetch. -/
  fpc : Word
  /-- `FIR`: the instruction word, 0 for a fetch fault. -/
  fir : Word
  /-- `FINFO`: the cause-specific value. -/
  finfo : BitVec 32
  deriving DecidableEq, Repr

/-- The record before any fault: all zero (R21, R27). -/
def FaultRecord.clear : FaultRecord := ⟨false, 0, 0, 0, 0⟩

/-- The platform's display sink (R4, R225): `strict` is the reference sink of R224. -/
inductive Sink where
  /-- An off-grid pixel raises `DISPLAY_RANGE` (R224). -/
  | strict
  /-- An off-grid pixel reads as off and is not written (R225). -/
  | ignore
  /-- Coordinates are reduced modulo 64 and modulo 32 (R225). -/
  | wrap
  deriving DecidableEq, Repr

/-- What a cycle sends out besides its state (R90), as events of the ports of R220. -/
inductive Event where
  /-- `unrec`: the word was not recognised (R86, R240). -/
  | unrec (w : Word)
  /-- `repaint`: the picture changed (R147, one event for each `DXYN` that toggled a pixel, log entry 10). -/
  | repaint
  deriving DecidableEq, Repr

/-- Memory as cells by rising address, none equal to what an unlisted address reads as (`Memory.wf` in Ops.lean). -/
abbrev Memory := List Host.Cell

/-- The pixels `FB[y][x]` (R24, R224): row `y` holds pixel `x` in bit `x`. -/
abbrev Display := Vector (BitVec 64) 32

/-- The state of the core (R10 to R21) and of the collaborators a program observes (R22 to R25). -/
structure State where
  /-- `V[0]` to `V[15]` (R10). -/
  v : Vector Byte 16
  /-- `I`, the index register (R12). -/
  index : Word
  /-- `PC` (R13). -/
  pc : Word
  /-- `SP` (R16). -/
  sp : BitVec 4
  /-- `STACK[0]` to `STACK[15]` (R15). -/
  stack : Vector Word 16
  /-- `DT`, the delay timer (R19). -/
  dt : Byte
  /-- `ST`, the sound timer: dead state (R18). -/
  st : Byte
  /-- `FAULT`, `FCAUSE`, `FPC`, `FIR`, `FINFO` (R21). -/
  faultRec : FaultRecord
  /-- `MEM` (R22). -/
  mem : Memory
  /-- The display pixels (R24). -/
  fb : Display
  /-- The parameter `SINK` (R4). -/
  sink : Sink
  /-- The keypad levels of the coming cycles, first this cycle's; after the last, free values (R23, R162). -/
  keyIn : List (BitVec 16)
  /-- The bytes the coming `CXNN` take; after the last, free values (R25, R126). -/
  rndIn : List Byte
  /-- The cycle number `t` of R4, read by the free values only. -/
  cycle : Nat
  /-- The events sent out so far, newest first (R90). -/
  events : List Event
  deriving DecidableEq, Repr

/-- The outcome of an instruction and of a step. -/
abbrev Result := Host.Outcome State Fault Refusal

/-- The machine right after reset, before a program is loaded (R27, R224, R252): every element zero but `PC`; memory
with nothing listed (the font and zeros, R256); the display off; the default sink; no event; and no input named, so
that every key level and random byte is a free value. -/
def State.reset : State where
  v := Vector.replicate 16 0
  index := 0
  pc := BitVec.ofNat 16 Config.loadAddr
  sp := 0
  stack := Vector.replicate 16 0
  dt := 0
  st := 0
  faultRec := FaultRecord.clear
  mem := []
  fb := Vector.replicate 32 0
  sink := .strict
  keyIn := []
  rndIn := []
  cycle := 0
  events := []

end Sys2Proof.Machine
end

