-- ==== Sys2Proof/Machine/Ops.lean ====
section
/-! DEFINITION. The named operations over registers, memory, display and inputs, and taking a fault. -/

namespace Sys2Proof.Machine

/-! ### Memory (spec/20_memory.md) -/

/-- What an address nothing has been loaded at reads as: `FONT` below 0x50, 0 above (R27, R256). -/
def Memory.unlisted (a : Nat) : Byte := Config.font.getD a 0

/-- The canonical form: addresses of the 4096-byte space, strictly rising, no entry an unlisted address would give. -/
abbrev Memory.wf (m : Memory) : Prop :=
  m.Pairwise (fun c d => c.1 < d.1) ∧ ∀ c ∈ m, c.1 < Config.memSize ∧ c.2 ≠ Memory.unlisted c.1

/-- `MemRead(a, 1)` (R44, R48): the callers have raised a fault first when `a` is above 0xFFF (R47). -/
def Memory.read : Memory → Nat → Byte
  | [], a => Memory.unlisted a
  | (k, b) :: m, a => if a = k then b else Memory.read m a

/-- Put a cell in its place, or take it out when it says what an unlisted address says. -/
def Memory.insert : Memory → Nat → Byte → Memory
  | [], a, b => if b = Memory.unlisted a then [] else [(a, b)]
  | (k, c) :: m, a, b =>
    if a < k then (if b = Memory.unlisted a then (k, c) :: m else (a, b) :: (k, c) :: m)
    else if a = k then (if b = Memory.unlisted a then m else (a, b) :: m)
    else (k, c) :: Memory.insert m a b

/-- The loader's write of one byte (R230); no instruction writes memory (R43). There is no byte above 0xFFF (R40). -/
def Memory.write (m : Memory) (a : Nat) (b : Byte) : Memory :=
  if a < Config.memSize then m.insert a b else m

/-- The loader's copy of a byte sequence to consecutive addresses from `a` (R230). -/
def Memory.load (m : Memory) (a : Nat) : List Byte → Memory
  | [] => m
  | b :: bs => Memory.load (m.write a b) (a + 1) bs

/-- The memory image at launch: `FONT` from 0x000, `PROGRAM` from 0x200, zeros elsewhere (R255, R256). -/
def Memory.launch (font program : List Byte) : Memory :=
  Memory.load (Memory.load [] 0 font) Config.loadAddr program

/-- The launch state of a run: the state after reset with the platform's memory image (R255, R256). -/
def launch (font program : List Byte) : State := { State.reset with mem := Memory.launch font program }

/-! ### Registers and stack (spec/10_state.md) -/

/-- Read `V[x]` (R10). -/
def State.getV (s : State) (x : Reg) : Byte := s.v[x.val]

/-- Write `V[x]` (R10). -/
def State.setV (s : State) (x : Reg) (b : Byte) : State := { s with v := s.v.set x.val b }

/-- Write `PC` (R13). -/
def State.setPc (s : State) (w : Word) : State := { s with pc := w }

/-- Write `I` (R12). -/
def State.setIndex (s : State) (w : Word) : State := { s with index := w }

/-- Write `DT` (R19). -/
def State.setDt (s : State) (b : Byte) : State := { s with dt := b }

/-- Read `STACK[k]` (R15). -/
def State.slot (s : State) (k : BitVec 4) : Word := s.stack[k.toNat]

/-- Push a return address: increment `SP`, then write the slot (R16, R103). The caller has raised a fault first when
`SP` is 15. -/
def State.push (s : State) (w : Word) : State :=
  { s with sp := s.sp + 1, stack := s.stack.set (s.sp + 1).toNat w }

/-- Pop the return address into `PC`: read the slot, then decrement `SP`; the slot keeps its value (R16, R17, R101).
The caller has raised a fault first when `SP` is 0. -/
def State.popPc (s : State) : State := { s with pc := s.slot s.sp, sp := s.sp - 1 }

/-- The skip: `PC <- PC + 2` when the condition holds (R110). -/
def State.skipIf (s : State) (c : Bool) : State := if c then s.setPc (s.pc + 2) else s

/-! ### Inputs (R162, R126) -/

/-- The 16 keypad levels of this cycle (R23, R162): the first named ones, or a free value. -/
def State.keypad (s : State) : BitVec 16 :=
  match s.keyIn with
  | [] => Config.keypad s.cycle
  | k :: _ => k

/-- `key(k)`: key `k` is pressed in this cycle (R162, R228). -/
def State.key (s : State) (k : Nat) : Bool := s.keypad.getLsbD k

/-- `rnd()`: the byte the random source delivers to a `CXNN` of this cycle (R126): the first named one, or a free
value. -/
def State.rnd (s : State) : Byte :=
  match s.rndIn with
  | [] => Config.randomByte s.cycle
  | r :: _ => r

/-- The byte taken is consumed; nothing else consumes one (R126). -/
def State.takeRnd (s : State) : State := { s with rndIn := s.rndIn.tail }

/-- Send an event out (R90). -/
def State.emit (s : State) (e : Event) : State := { s with events := e :: s.events }

/-! ### The display and its sinks (R222 to R225) -/

/-- `FB[y][x] = 1`; false off the grid, where no sink asks. -/
def Display.pixel (d : Display) (x y : Nat) : Bool := if h : y < 32 then d[y].getLsbD x else false

/-- `FB[y][x] <- b`; off the grid, where no sink writes, nothing. -/
def Display.setPixel (d : Display) (x y : Nat) (b : Bool) : Display :=
  if h : y < 32 then
    d.set y (if b then d[y] ||| BitVec.twoPow 64 x else d[y] &&& ~~~(BitVec.twoPow 64 x))
  else d

/-- A coordinate pair of the 64 x 32 grid (R146). -/
def onGrid (x y : Nat) : Bool := decide (x ≤ 63) && decide (y ≤ 31)

/-- `SINK.get_pixel(x, y)` (R224, R225); `none` where the sink raises `DISPLAY_RANGE`. -/
def Sink.getPixel (k : Sink) (d : Display) (x y : Nat) : Option Bool :=
  match k with
  | .strict => if onGrid x y then some (d.pixel x y) else none
  | .ignore => if onGrid x y then some (d.pixel x y) else some false
  | .wrap => some (d.pixel (x % 64) (y % 32))

/-- `SINK.set_pixel(x, y, b)` (R224, R225); `none` where the sink raises `DISPLAY_RANGE`. -/
def Sink.setPixel (k : Sink) (d : Display) (x y : Nat) (b : Bool) : Option Display :=
  match k with
  | .strict => if onGrid x y then some (d.setPixel x y b) else none
  | .ignore => if onGrid x y then some (d.setPixel x y b) else some d
  | .wrap => some (d.setPixel (x % 64) (y % 32) b)

/-! ### Taking a fault, and the only way out of one (spec/60_exceptions.md) -/

/-- The cause codes of `FCAUSE` (R202). -/
def Cause.code : Cause → BitVec 3
  | .fetchRange => 1
  | .dataRange => 2
  | .stackOverflow => 3
  | .stackUnderflow => 4
  | .keyRange => 5
  | .indexOverflow => 6
  | .displayRange => 7

/-- Fault entry (R204): `PC` is `pc0` again, the five elements of the record are written, `FINFO` zero-extended to 32
bits. The caller gives the state with every other element of core state as at the start of the cycle. -/
def raiseAt (pc0 ir : Word) (c : Cause) (info : Nat) (s : State) : State :=
  { s with
    pc := pc0
    faultRec := { fault := true, fcause := c.code, fpc := pc0, fir := ir, finfo := BitVec.ofNat 32 info } }

/-- `raise Cause(info)` of the instruction `i` (R204): while it executes `PC` is `pc0 + 2` (R82), and the word fetched
is `encode i` (log entries 8 and 9). -/
def raise (i : Instr) (c : Cause) (info : Nat) (s : State) : State := raiseAt (s.pc - 2) (encode i) c info s

/-- The `reset` event of the driver (R231, R250): every element of core state at its reset value and the record
cleared; memory, keypad, display and the other collaborators untouched. No instruction leaves a fault (R207); this is
the only way out. It is a move of the driver between cycles, not of a step (log entry 12). -/
def coreReset (s : State) : State :=
  { s with
    v := State.reset.v
    index := State.reset.index
    pc := State.reset.pc
    sp := State.reset.sp
    stack := State.reset.stack
    dt := State.reset.dt
    st := State.reset.st
    faultRec := State.reset.faultRec }

end Sys2Proof.Machine
end

