-- ==== Sys2Proof/Machine/Operands.lean ====
section
/-! DEFINITION. The operand forms (spec/30_encoding.md R62) and the sprite's pixels (spec/45_draw.md R144, R146). -/

namespace Sys2Proof.Machine

/-- `zext_16(NNN)`: a 12-bit address written to `PC` or `I` (R62). -/
def zextAddr (nnn : Addr) : Word := nnn.zeroExtend 16

/-- The key number an `EX9E` or `EXA1` reads: the value of `V[x]`, not masked (R161). -/
def State.keyNumber (s : State) (x : Reg) : Nat := (s.getV x).toNat

/-- The integer sum `I + zext_16(V[x])` (R132). -/
def State.indexSum (s : State) (x : Reg) : Nat := s.index.toNat + (s.getV x).toNat

/-- The sprite rows: the bytes at `I` to `I + n - 1`, integers with no wrap (R143, R144). -/
def State.spriteRows (s : State) (n : Nat) : List Byte := (List.range n).map fun r => s.mem.read (s.index.toNat + r)

/-- The set bits of one row drawn at `(x, y)`, most significant bit first: column `col` is bit `7 - col`
(R144); the sums are integers, neither wrapped nor clipped (R146). -/
def rowPixels (b : Byte) (x y : Nat) : List (Nat × Nat) :=
  (List.range 8).filterMap fun col => if b.getLsbD (7 - col) then some (x + col, y) else none

/-- The set bits of a sprite drawn at `(x, y)`: rows ascending, and in a row column 0 first (R145). -/
def spritePixels : List Byte → Nat → Nat → List (Nat × Nat)
  | [], _, _ => []
  | b :: bs, x, y => rowPixels b x y ++ spritePixels bs x (y + 1)

/-- The pixels `DXYN` toggles, in order: base coordinates latched from `V[x]` and `V[y]` (R142). -/
def State.drawPixels (s : State) (x y : Reg) (n : Nat) : List (Nat × Nat) :=
  spritePixels (s.spriteRows n) (s.getV x).toNat (s.getV y).toNat

end Sys2Proof.Machine
end

