-- ==== Sys2Proof/Machine/Flags.lean ====
section
/-! DEFINITION. The one flag of the machine: the collision flag `V[15]` of `DXYN` (spec/10_state.md R11, R141, R145).
No instruction generates a carry, borrow or overflow flag (spec/43_register.md R120). -/

namespace Sys2Proof.Machine

/-- The flag register, `V[15]` (R11). -/
def flagReg : Reg := 15

/-- The value written to `V[15]`: 1 for a collision, else 0 (R141). -/
def collisionFlag (collided : Bool) : Byte := if collided then 1 else 0

/-- A pixel turned off that was on is a collision; the flag is the OR over all toggles (R145). -/
def collide (collided wasOn : Bool) : Bool := collided || wasOn

end Sys2Proof.Machine
end

