-- ==== Sys2Proof/Machine/Cycle.lean ====
section
/-! DEFINITION. The parts of a cycle around an instruction: fetch, advance, the unrecognised arm, the timer decrement
(spec/40_cycle.md). -/

namespace Sys2Proof.Machine

/-- The fetch range check: `PC > 0x0FFE` (R81). -/
def State.fetchOutOfRange (s : State) : Bool := decide (0x0FFE < s.pc.toNat)

/-- `raise FETCH_RANGE(pc0)`: nothing was fetched, so `FIR` is 0 (R81, R202, R204). -/
def fetchFault (s : State) : State := raiseAt s.pc 0 .fetchRange s.pc.toNat s

/-- The fetch: the byte at `PC` is the high one, the byte at `PC + 1` the low one (R45, R82); any parity (R46). -/
def State.fetchWord (s : State) : Word := wordOfBytes (s.mem.read s.pc.toNat) (s.mem.read (s.pc.toNat + 1))

/-- The advance, before dispatch (R82). -/
def State.advance (s : State) : State := s.setPc (s.pc + 2)

/-- The unrecognised arm: nothing changes; the event `unrec` is signalled (R86, R240). -/
def execUnrecognised (w : Word) (s : State) : State := s.emit (.unrec w)

/-- `DT` down by one, not below 0 (R87). -/
def decrement (d : Byte) : Byte := if d = 0 then 0 else d - 1

/-- The timer decrement (R87), and the inputs going on to the next cycle (R162, log entries 3 to 5). -/
def State.tick (t : State) : State :=
  { t with dt := decrement t.dt, keyIn := t.keyIn.tail, cycle := t.cycle + 1 }

/-- The end of a cycle: a cycle that faulted keeps `DT` (R89); any other ticks (R87). -/
def State.endCycle (t : State) : State := if t.faultRec.fault then t else t.tick

/-- The end of the cycle on an instruction's outcome (R80, R87, R89). -/
def finish : Result → Result
  | .next t => .next t.endCycle
  | .fault r => .fault r
  | .refused r => .refused r

end Sys2Proof.Machine
end

