-- ==== Sys2Proof/Machine/Draw.lean ====
section
/-! DEFINITION. The sprite compositor with collision detection (spec/45_draw.md). -/

namespace Sys2Proof.Machine

/-- What a draw in progress has done: the display, the collision flag so far, and whether a pixel was toggled. -/
structure Canvas where
  fb : Display
  collided : Bool
  toggled : Bool
  deriving DecidableEq, Repr

/-- How the toggles of a draw end. -/
inductive PlotResult where
  /-- Every pixel was toggled. -/
  | done (c : Canvas)
  /-- The sink refused `(x, y)`; `c` holds the toggles made before it (R148). -/
  | offGrid (c : Canvas) (x y : Nat)
  deriving DecidableEq, Repr

/-- Toggle pixels in order (R141, R145): ask the sink, write the opposite, record a collision when the pixel was on.
The first pixel the sink refuses ends it, with the earlier toggles made (R148). -/
def plot (k : Sink) : List (Nat × Nat) → Canvas → PlotResult
  | [], c => .done c
  | (x, y) :: ps, c =>
    match k.getPixel c.fb x y with
    | none => .offGrid c x y
    | some on =>
      match k.setPixel c.fb x y (!on) with
      | none => .offGrid c x y
      | some fb => plot k ps { fb := fb, collided := collide c.collided on, toggled := true }

/-- The draw's effect outside the core: the pixels, and a repaint event when one was toggled (R147). -/
def State.show (s : State) (c : Canvas) : State :=
  if c.toggled then { s with fb := c.fb }.emit .repaint else { s with fb := c.fb }

/-- `FINFO` of `DISPLAY_RANGE`: `(y << 16) | x` (R148). -/
def pixelInfo (x y : Nat) : Nat := (y <<< 16) ||| x

/-- The sprite's range leaves memory: `N > 0` and `I + N - 1 > 0x0FFF` (R143). -/
def State.spriteOutOfRange (s : State) (n : Nat) : Bool := decide (0 < n) && decide (0x0FFF < s.index.toNat + n - 1)

/-- `DXYN` DRW Vx, Vy, n (R141 to R149): the whole address range is checked first (R143); the coordinates are latched
before `V[15]` is written (R142); an off-grid pixel of a strict sink raises `DISPLAY_RANGE` with `V[15]` unchanged
(R148); else `V[15]` reports the collision. -/
def execDrw (x y : Reg) (n : Nat) (s : State) : Result :=
  if s.spriteOutOfRange n then .next (raise (.drw x y n) .dataRange (max s.index.toNat 0x1000) s)
  else
    match plot s.sink (s.drawPixels x y n) { fb := s.fb, collided := false, toggled := false } with
    | .done c => .next ((s.show c).setV flagReg (collisionFlag c.collided))
    | .offGrid c px py => .next (raise (.drw x y n) .displayRange (pixelInfo px py) (s.show c))

end Sys2Proof.Machine
end

