-- ==== Sys2Proof/Machine/Flow.lean ====
section
/-! DEFINITION. Return, jump, call (spec/41_flow.md). `PC` holds `pc0 + 2` when a meaning runs (R82). -/

namespace Sys2Proof.Machine

/-- `00EE` RET (R101). -/
def execRet (s : State) : Result :=
  if s.sp = 0 then .next (raise .ret .stackUnderflow 0 s) else .next s.popPc

/-- `1NNN` JP (R102). -/
def execJp (nnn : Addr) (s : State) : Result := .next (s.setPc (zextAddr nnn))

/-- `2NNN` CALL (R103). -/
def execCall (nnn : Addr) (s : State) : Result :=
  if s.sp = 15 then .next (raise (.call nnn) .stackOverflow 16 s)
  else .next ((s.push s.pc).setPc (zextAddr nnn))

end Sys2Proof.Machine
end

