-- ==== Sys2Proof/Machine/Index.lean ====
section
/-! DEFINITION. Index register instructions (spec/44_index.md). Neither accesses memory or writes a flag (R130, R132). -/

namespace Sys2Proof.Machine

/-- `ANNN` LD I, nnn (R131). -/
def execLdINnn (nnn : Addr) (s : State) : Result := .next (s.setIndex (zextAddr nnn))

/-- `FX1E` ADD I, Vx: the sum is not reduced modulo 4096, and faults when 16 bits do not hold it (R132). -/
def execAddIVx (x : Reg) (s : State) : Result :=
  if 0xFFFF < s.indexSum x then .next (raise (.addIVx x) .indexOverflow (s.indexSum x) s)
  else .next (s.setIndex (BitVec.ofNat 16 (s.indexSum x)))

end Sys2Proof.Machine
end

