-- ==== Sys2Proof/Machine/Keypad.lean ====
section
/-! DEFINITION. Keypad skips (spec/46_keypad.md). -/

namespace Sys2Proof.Machine

/-- `EX9E` SKP Vx: skip if key `V[x]` is pressed (R163); a number above 15 raises `KEY_RANGE` (R161). -/
def execSkp (x : Reg) (s : State) : Result :=
  if 15 < s.keyNumber x then .next (raise (.skp x) .keyRange (s.keyNumber x) s)
  else .next (s.skipIf (s.key (s.keyNumber x)))

/-- `EXA1` SKNP Vx: skip if key `V[x]` is not pressed (R164); a number above 15 raises `KEY_RANGE` (R161). -/
def execSknp (x : Reg) (s : State) : Result :=
  if 15 < s.keyNumber x then .next (raise (.sknp x) .keyRange (s.keyNumber x) s)
  else .next (s.skipIf (!s.key (s.keyNumber x)))

end Sys2Proof.Machine
end

