-- ==== Sys2Proof/Machine/Register.lean ====
section
/-! DEFINITION. Register instructions (spec/43_register.md). None writes a flag as a side effect (R120). -/

namespace Sys2Proof.Machine

/-- `6XNN` LD Vx, nn (R121). -/
def execLdVxNn (x : Reg) (nn : Byte) (s : State) : Result := .next (s.setV x nn)

/-- `7XNN` ADD Vx, nn: modulo 256, no carry (R122). -/
def execAddVxNn (x : Reg) (nn : Byte) (s : State) : Result := .next (s.setV x (s.getV x + nn))

/-- `8XY0` LD Vx, Vy (R123). -/
def execLdVxVy (x y : Reg) (s : State) : Result := .next (s.setV x (s.getV y))

/-- `CXNN` RND Vx, nn: one fresh byte, AND the immediate (R124, R126). -/
def execRndVxNn (x : Reg) (nn : Byte) (s : State) : Result := .next (s.takeRnd.setV x (s.rnd &&& nn))

end Sys2Proof.Machine
end

