-- ==== Sys2Proof/Machine/Skip.lean ====
section
/-! DEFINITION. Conditional skips on registers (spec/42_skip.md). -/

namespace Sys2Proof.Machine

/-- `3XNN` SE Vx, nn: skip if equal (R111). -/
def execSeVxNn (x : Reg) (nn : Byte) (s : State) : Result := .next (s.skipIf (s.getV x == nn))

/-- `4XNN` SNE Vx, nn: skip if not equal (R112). -/
def execSneVxNn (x : Reg) (nn : Byte) (s : State) : Result := .next (s.skipIf (s.getV x != nn))

/-- `9XY0` SE9 Vx, Vy: skip if the registers are EQUAL (R113), the opposite of other CHIP-8 machines. -/
def execSe9VxVy (x y : Reg) (s : State) : Result := .next (s.skipIf (s.getV x == s.getV y))

end Sys2Proof.Machine
end

