-- ==== Sys2Proof/Machine/Timer.lean ====
section
/-! DEFINITION. Delay-timer instructions (spec/47_timer.md). The decrement of the same cycle follows (R87). -/

namespace Sys2Proof.Machine

/-- `FX07` LD Vx, DT (R171). -/
def execLdVxDt (x : Reg) (s : State) : Result := .next (s.setV x s.dt)

/-- `FX15` LD DT, Vx (R172). -/
def execLdDtVx (x : Reg) (s : State) : Result := .next (s.setDt (s.getV x))

end Sys2Proof.Machine
end

