-- ==== Sys2Proof/Machine/Step.lean ====
section
/-! DEFINITION. One cycle of the core (spec/40_cycle.md R80), and where a word is placed to be fetched next. -/

namespace Sys2Proof.Machine

/-- `execute_cycle()` (R80): a faulted core does nothing (R88); a fetch out of range faults (R81); else fetch and
advance (R82), one arm runs (R83, R86), and the timer is decremented (R87). -/
def step (s : State) : Host.Outcome State Fault Refusal :=
  if s.faultRec.fault then .next s
  else if s.fetchOutOfRange then .next (fetchFault s)
  else
    match decodeWord s.fetchWord with
    | none => finish (.next (execUnrecognised s.fetchWord s.advance))
    | some i => finish (exec i s.advance)

/-- `s` with the row's word stored where the next fetch reads it: the high byte at `PC`, the low byte at `PC + 1`
(R45). It stands for the load of a program from outside the machine (R230, log entry 11). -/
def State.withFetchWord (s : State) (nbits w : Nat) : State :=
  { s with mem := s.mem.load s.pc.toNat [highByte (tableWord nbits w), lowByte (tableWord nbits w)] }

end Sys2Proof.Machine
end

