-- ==== Sys2Proof/Safety.lean ====
section
/-! DEFINITION. What a safe run is, the machine's invariant, and the frames, in the terms the claims use. -/

namespace Sys2Proof.Machine

/-- The core is faulted: `FAULT = 1` (R21, R88). -/
def State.faulted (s : State) : Bool := s.faultRec.fault

/-- A safe run: `n` cycles from `s` end in a state that is not faulted. Since a faulted core stays faulted (R207), no
cycle of the run faulted. -/
def SafeRun (n : Nat) (s : State) : Prop := ∃ t, Sys2Proof.core.run n s = .next t ∧ t.faulted = false

/-! ### Frames -/

/-- Every general register is unchanged. -/
def KeepsV (s t : State) : Prop := ∀ y, t.getV y = s.getV y

/-- Every general register but `V[x]` is unchanged. -/
def KeepsVBut (x : Reg) (s t : State) : Prop := ∀ y, y ≠ x → t.getV y = s.getV y

/-- `SP` and every stack slot are unchanged. -/
def KeepsStack (s t : State) : Prop := t.sp = s.sp ∧ ∀ k, t.slot k = s.slot k

/-- Every byte of memory reads as before. -/
def KeepsMem (s t : State) : Prop := ∀ a, t.mem.read a = s.mem.read a

/-- Every pixel of the grid is unchanged. -/
def KeepsPixels (s t : State) : Prop := ∀ px py, px < 64 → py < 32 → t.fb.pixel px py = s.fb.pixel px py

/-- What no instruction that completes changes: memory, `ST`, the fault record, the sink, the keypad inputs and the
cycle number. -/
structure Quiet (s t : State) : Prop where
  mem : KeepsMem s t
  st : t.st = s.st
  faultRec : t.faultRec = s.faultRec
  sink : t.sink = s.sink
  keyIn : t.keyIn = s.keyIn
  cycle : t.cycle = s.cycle

/-- The display, the events sent out and the random bytes to come are unchanged. -/
structure KeepsOutside (s t : State) : Prop where
  pixels : KeepsPixels s t
  events : t.events = s.events
  rndIn : t.rndIn = s.rndIn

/-- Everything but `PC` is unchanged. -/
structure OnlyPc (s t : State) : Prop where
  v : KeepsV s t
  index : t.index = s.index
  stack : KeepsStack s t
  dt : t.dt = s.dt
  outside : KeepsOutside s t
  quiet : Quiet s t

/-- Everything but `V[x]` is unchanged, but perhaps the random bytes to come. -/
structure OnlyV (x : Reg) (s t : State) : Prop where
  v : KeepsVBut x s t
  index : t.index = s.index
  pc : t.pc = s.pc
  stack : KeepsStack s t
  dt : t.dt = s.dt
  pixels : KeepsPixels s t
  events : t.events = s.events
  quiet : Quiet s t

/-- The instruction `i`, executing in `s` (where `PC` is `pc0 + 2`), has raised the cause `c` with the value `info`
(R204): core state as at the start of the cycle, the record written, memory and inputs untouched. -/
structure FaultedAs (i : Instr) (c : Cause) (info : Nat) (s t : State) : Prop where
  v : KeepsV s t
  index : t.index = s.index
  pc : t.pc = s.pc - 2
  stack : KeepsStack s t
  dt : t.dt = s.dt
  st : t.st = s.st
  fault : t.faultRec.fault = true
  fcause : t.faultRec.fcause = c.code
  fpc : t.faultRec.fpc = s.pc - 2
  fir : t.faultRec.fir = encode i
  finfo : t.faultRec.finfo.toNat = info
  mem : KeepsMem s t
  sink : t.sink = s.sink
  keyIn : t.keyIn = s.keyIn
  rndIn : t.rndIn = s.rndIn
  cycle : t.cycle = s.cycle

/-! ### The sprite, said without the drawing loop (R144, R146) -/

/-- Bit `7 - c` of sprite row `r` is set: column `c` of the row is toggled (R144). -/
def State.bitSet (s : State) (r c : Nat) : Prop := c < 8 ∧ (s.mem.read (s.index.toNat + r)).getLsbD (7 - c) = true

/-- The pixel `(px, py)` belongs to a set bit of the `n`-row sprite drawn at `(V[x], V[y])` (R144, R146). -/
def State.spriteAt (s : State) (x y : Reg) (n px py : Nat) : Prop :=
  ∃ r c, r < n ∧ s.bitSet r c ∧ px = (s.getV x).toNat + c ∧ py = (s.getV y).toNat + r

/-- The rows of an `n`-row sprite lie in memory (R143). -/
def State.spriteInMemory (s : State) (n : Nat) : Prop := n = 0 ∨ s.index.toNat + n ≤ 4096

/-- The pixel is on the 64 x 32 grid (R146). -/
def GridPixel (px py : Nat) : Prop := px ≤ 63 ∧ py ≤ 31

/-! ### When a cycle faults (R202), read off the state before it -/

/-- The instruction `i` faults in the state `s` (the conditions of R202). -/
def InstrFaults (s : State) : Instr → Prop
  | .ret => s.sp = 0
  | .call _ => s.sp = 15
  | .skp x => 15 < (s.getV x).toNat
  | .sknp x => 15 < (s.getV x).toNat
  | .addIVx x => 0xFFFF < s.index.toNat + (s.getV x).toNat
  | .drw x y n => ¬ s.spriteInMemory n ∨
      (s.sink = .strict ∧ ∃ px py, s.spriteAt x y n px py ∧ ¬ GridPixel px py)
  | .jp _ => False
  | .seVxNn _ _ => False
  | .sneVxNn _ _ => False
  | .ldVxNn _ _ => False
  | .addVxNn _ _ => False
  | .ldVxVy _ _ => False
  | .se9VxVy _ _ => False
  | .ldINnn _ => False
  | .rndVxNn _ _ => False
  | .ldVxDt _ => False
  | .ldDtVx _ => False

/-- The next cycle from the unfaulted state `s` faults (R81, R202): its fetch, or its instruction. -/
def CycleFaults (s : State) : Prop :=
  0x0FFE < s.pc.toNat ∨ ∃ i, decodeWord s.fetchWord = some i ∧ InstrFaults s i

/-! ### Digits of an instruction word, by arithmetic (R61) -/

/-- Nibble `k` of the word, 0 the least significant. -/
def nibble (w : Word) (k : Nat) : Nat := w.toNat / 16 ^ k % 16

/-! ### The invariant (R14, R16 to R18, R21, R202) -/

/-- The condition under which the instruction `i` faults, with the code and value of R202, read off the state the
fault left, which is the state before it (R205). -/
def FaultCondition (s : State) : Instr → Prop
  | .ret => s.faultRec.fcause = 4 ∧ s.sp = 0 ∧ s.faultRec.finfo = 0
  | .call _ => s.faultRec.fcause = 3 ∧ s.sp = 15 ∧ s.faultRec.finfo = 16
  | .skp x => s.faultRec.fcause = 5 ∧ 15 < (s.getV x).toNat ∧ s.faultRec.finfo.toNat = (s.getV x).toNat
  | .sknp x => s.faultRec.fcause = 5 ∧ 15 < (s.getV x).toNat ∧ s.faultRec.finfo.toNat = (s.getV x).toNat
  | .addIVx x => s.faultRec.fcause = 6 ∧ 0xFFFF < s.index.toNat + (s.getV x).toNat ∧
      s.faultRec.finfo.toNat = s.index.toNat + (s.getV x).toNat
  | .drw x y n =>
      (s.faultRec.fcause = 2 ∧ 0 < n ∧ 0x0FFF < s.index.toNat + n - 1 ∧
        s.faultRec.finfo.toNat = if 0x0FFF < s.index.toNat then s.index.toNat else 0x1000) ∨
      (s.faultRec.fcause = 7 ∧ s.spriteInMemory n ∧ s.sink = .strict ∧
        ∃ px py, s.spriteAt x y n px py ∧ ¬ GridPixel px py ∧ s.faultRec.finfo.toNat = py * 65536 + px)
  | .jp _ => False
  | .seVxNn _ _ => False
  | .sneVxNn _ _ => False
  | .ldVxNn _ _ => False
  | .addVxNn _ _ => False
  | .ldVxVy _ _ => False
  | .se9VxVy _ _ => False
  | .ldINnn _ => False
  | .rndVxNn _ _ => False
  | .ldVxDt _ => False
  | .ldDtVx _ => False

/-- The record of a faulted core says what happened, row by row of R202: a fetch out of range, or the instruction at
`PC` under its condition. -/
def RecordExplains (s : State) : Prop :=
  s.faultRec.fpc = s.pc ∧
  ((s.faultRec.fcause = 1 ∧ 0x0FFE < s.pc.toNat ∧ s.faultRec.fir = 0 ∧ s.faultRec.finfo.toNat = s.pc.toNat) ∨
   (s.pc.toNat ≤ 0x0FFE ∧ s.faultRec.fir = s.fetchWord ∧
     ∃ i, decodeWord s.fetchWord = some i ∧ FaultCondition s i))

/-- What holds in every reachable state. -/
structure Inv (s : State) : Prop where
  /-- Memory is in canonical form. -/
  mem : s.mem.wf
  /-- R14. -/
  pc : s.pc.toNat ≤ 0x1002
  /-- R18. -/
  st : s.st = 0
  /-- R17: slot 0 is never used. -/
  slotZero : s.slot 0 = 0
  /-- R17: a slot holds 0 or a return address. -/
  slots : ∀ k, s.slot k = 0 ∨ (2 ≤ (s.slot k).toNat ∧ (s.slot k).toNat ≤ 0x1000)
  /-- R17: a slot of an outstanding call holds a return address. -/
  called : ∀ k, 0 < k.toNat → k.toNat ≤ s.sp.toNat → s.slot k ≠ 0
  /-- R21, R232: the record is zero until a fault. -/
  clear : s.faulted = false → s.faultRec = FaultRecord.clear
  /-- R202, R205: the record of a faulted core says what happened. -/
  explains : s.faulted = true → RecordExplains s

end Sys2Proof.Machine
end

