-- ==== Sys2Proof/Certificates/Slice0/Obligations.lean ====
section
/-! DEFINITION. The statements for the provers. Each docstring names the rules of spec/ it formalises. In a meaning's
state `PC` is already `pc0 + 2` (R82), so `s.pc` below is the address after the instruction. -/

open Sys2Proof Sys2Proof.Machine

/-! ### Encoding (spec/30_encoding.md) -/

/-- Words of spec/95_test_vectors.md 2.1, written out from R61 and R63, decode to what the table says, and the
unrecognised ones to nothing. -/
def Obligations.VectorWordsDecode : Prop :=
  [0x00EE, 0x1234, 0x2ABC, 0x3241, 0x4F00, 0x6A7F, 0x7003, 0x8530, 0x9120].map (fun n => decodeWord (BitVec.ofNat 16 n)) =
    [some .ret, some (.jp 0x234), some (.call 0xABC), some (.seVxNn 2 0x41), some (.sneVxNn 15 0x00),
     some (.ldVxNn 10 0x7F), some (.addVxNn 0 0x03), some (.ldVxVy 5 3), some (.se9VxVy 1 2)] ∧
  [0xA2F0, 0xC10F, 0xD125, 0xE39E, 0xE3A1, 0xF207, 0xF215, 0xF41E].map (fun n => decodeWord (BitVec.ofNat 16 n)) =
    [some (.ldINnn 0x2F0), some (.rndVxNn 1 0x0F), some (.drw 1 2 5), some (.skp 3), some (.sknp 3), some (.ldVxDt 2),
     some (.ldDtVx 2), some (.addIVx 4)] ∧
  ∀ n ∈ [0x0000, 0x00E0, 0x00EF, 0x01EE, 0x0FEE, 0x5120, 0xB200, 0x8124, 0x853F, 0x9121, 0x912F, 0xE09F, 0xE3A0, 0xE300,
         0xF018, 0xF029, 0xF033, 0xF055, 0xF065, 0xF00A, 0xF01F, 0xFFFF],
    decodeWord (BitVec.ofNat 16 n) = none

/-- Decoding the encoding of a well-formed instruction gives it back, as a word and as the first two bytes of any byte
sequence (R60, R61, R63). -/
def Obligations.DecodeOfEncode : Prop :=
  ∀ i : Instr, i.wellFormed = true →
    decodeWord (encode i) = some i ∧ ∀ rest, decode (encodeBytes i ++ rest) = .ok (i, rest)

/-- Encoding what a word decodes to gives the word back, so decoding drops no bit, and the decoder gives only
well-formed instructions. -/
def Obligations.EncodeOfDecode : Prop :=
  ∀ (w : Word) (i : Instr), decodeWord w = some i → encode i = w ∧ i.wellFormed = true

/-- R63: a word is the instruction of a row exactly when `w & mask = match`; no word matches two rows; and a word is
unrecognised exactly when it matches no row (R65). -/
def Obligations.DecoderIsOpcodeTable : Prop :=
  (∀ w : Word, ∀ r ∈ opcodeTable, (w &&& r.mask = r.pattern ↔ ∃ i, decodeWord w = some i ∧ i.row = r)) ∧
  (∀ w : Word, ∀ r ∈ opcodeTable, ∀ r' ∈ opcodeTable,
    w &&& r.mask = r.pattern → w &&& r'.mask = r'.pattern → r = r') ∧
  (∀ w : Word, decodeWord w = none ↔ ∀ r ∈ opcodeTable, w &&& r.mask ≠ r.pattern)

/-! ### Reset, launch, inputs (spec/10_state.md R27, spec/70_reset_and_hazards.md) -/

/-- R27: the reset values of every element of core state and of the fault record, and memory outside the font; R224: all
pixels off. -/
def Obligations.ResetValues : Prop :=
  (∀ x, State.reset.getV x = 0) ∧ State.reset.index = 0 ∧ State.reset.pc = 0x0200 ∧ State.reset.sp = 0 ∧
  (∀ k, State.reset.slot k = 0) ∧ State.reset.dt = 0 ∧ State.reset.st = 0 ∧
  State.reset.faultRec = ⟨false, 0, 0, 0, 0⟩ ∧ (∀ a, 0x50 ≤ a → a ≤ 0xFFF → State.reset.mem.read a = 0) ∧
  (∀ px py, State.reset.fb.pixel px py = false)

/-- R256: memory at launch is FONT, zeros, PROGRAM, zeros, for every 80-byte font and every program of at most 3584
bytes. That every other element is then at its reset value (R27, R255) rests on the model's launch, which is the reset
state with that memory (log entry 11). -/
def Obligations.LaunchMemory : Prop :=
  ∀ font program : List Byte, font.length = 80 → program.length ≤ 3584 →
    (∀ a, a < 0x50 → (launch font program).mem.read a = font.getD a 0) ∧
    (∀ a, 0x50 ≤ a → a < 0x200 → (launch font program).mem.read a = 0) ∧
    (∀ k, k < program.length → (launch font program).mem.read (0x200 + k) = program.getD k 0) ∧
    (∀ a, 0x200 + program.length ≤ a → a ≤ 0xFFF → (launch font program).mem.read a = 0) ∧
    { launch font program with mem := [] } = State.reset

/-- R231, R250: a reset event, in any state, a faulted one included, puts every element of core state at its reset
value, clears the record, and touches neither memory nor display nor inputs. That it is an operation beside the step is
the model's choice (log entry 12), and so is that it leaves the cycle number and the event list, the model's own
fields, as they are (log entries 5 and 10). -/
def Obligations.ResetEventRestoresCore : Prop :=
  ∀ s : State,
    (∀ x, (coreReset s).getV x = 0) ∧ (coreReset s).index = 0 ∧ (coreReset s).pc = 0x0200 ∧ (coreReset s).sp = 0 ∧
    (∀ k, (coreReset s).slot k = 0) ∧ (coreReset s).dt = 0 ∧ (coreReset s).st = 0 ∧
    (coreReset s).faultRec = ⟨false, 0, 0, 0, 0⟩ ∧ KeepsMem s (coreReset s) ∧ (coreReset s).fb = s.fb ∧
    (coreReset s).keyIn = s.keyIn ∧ (coreReset s).rndIn = s.rndIn ∧ (coreReset s).sink = s.sink ∧
    (coreReset s).cycle = s.cycle ∧ (coreReset s).events = s.events

/-- R162: the keypad levels of a cycle may be any 16 bits, and those of the next cycle any 16 bits again, whatever the
program does in between. The list of levels is the model's form of this input (log entry 3). -/
def Obligations.KeypadLevelsAreFree : Prop :=
  ∀ (s t : State) (now after : BitVec 16),
    step { s with keyIn := [now, after] } = .next t → t.faulted = false →
      (∀ k, State.key { s with keyIn := [now, after] } k = now.getLsbD k) ∧ (∀ k, t.key k = after.getLsbD k)

/-- R124, R126: for every byte `r` the source may deliver, `CXNN` runs and gives `r & NN`, whatever the state.
The list of bytes is the model's form of this input (log entry 4). -/
def Obligations.EveryRandomByteIsPossible : Prop :=
  ∀ (x : Reg) (nn r : Byte) (s : State),
    ∃ t, exec (.rndVxNn x nn) { s with rndIn := [r] } = .next t ∧ t.getV x = r &&& nn

/-! ### The cycle (spec/40_cycle.md) -/

/-- R45: the instruction word is big-endian, the byte at `PC` the high one. -/
def Obligations.FetchIsBigEndian : Prop :=
  ∀ s : State, s.fetchWord.toNat = 256 * (s.mem.read s.pc.toNat).toNat + (s.mem.read (s.pc.toNat + 1)).toNat

/-- In a memory of canonical form, a word placed at `PC` is the word the next fetch reads, whatever stood there, so a
program loaded from outside, as the model has it (log entry 11), runs as loaded; the two ways of decoding it agree. -/
def Obligations.PlacedWordIsFetched : Prop :=
  ∀ (s : State) (w : Word), s.mem.wf → s.pc.toNat ≤ 0x0FFE →
    (s.withFetchWord 16 w.toNat).fetchWord = w ∧ decodeTableWord 16 w.toNat = decodeWord w

/-- When the two bytes at `PC` decode to `i`, the step is `exec i` at the state with `PC` advanced by 2 (R82, R83),
followed by the end of the cycle: nothing more when the instruction faulted (R89), else the decrement of `DT` (R87),
and the keypad going on to its next levels and the cycle number by one (the model's own fields, log entries 3 and 5). -/
def Obligations.StepRunsDecodedInstruction : Prop :=
  ∀ (s t : State) (i : Instr), s.faulted = false → s.pc.toNat ≤ 0x0FFE →
    decode [s.mem.read s.pc.toNat, s.mem.read (s.pc.toNat + 1)] = .ok (i, []) →
    exec i { s with pc := s.pc + 2 } = .next t →
      (t.faulted = true → step s = .next t) ∧
      (t.faulted = false → ∃ d : Byte, d.toNat = t.dt.toNat - 1 ∧
        step s = .next { t with dt := d, keyIn := t.keyIn.tail, cycle := t.cycle + 1 })

/-- R86: an unrecognised word changes nothing but `PC` (+2) and the timer decrement, and signals `unrec`,
which the model puts on its event list (log entry 10). -/
def Obligations.UnrecognisedWordIsIgnored : Prop :=
  ∀ s : State, s.faulted = false → s.pc.toNat ≤ 0x0FFE → decodeWord s.fetchWord = none →
    ∃ t, step s = .next t ∧ t.pc = s.pc + 2 ∧ t.dt.toNat = s.dt.toNat - 1 ∧ KeepsV s t ∧ t.index = s.index ∧
      KeepsStack s t ∧ t.st = s.st ∧ t.faultRec = s.faultRec ∧ KeepsMem s t ∧ KeepsPixels s t ∧
      t.rndIn = s.rndIn ∧ t.sink = s.sink ∧ t.events = .unrec s.fetchWord :: s.events

/-- R81: a fetch with `PC > 0x0FFE` raises `FETCH_RANGE` (code 1) with `FINFO = PC` and `FIR = 0`, and nothing else
changes; a fetch of zero bytes inside memory is no fault. -/
def Obligations.FetchOutOfRangeFaults : Prop :=
  (∀ s : State, s.faulted = false → 0x0FFE < s.pc.toNat →
    step s = .next { s with faultRec := ⟨true, 1, s.pc, 0, s.pc.zeroExtend 32⟩ }) ∧
  ∀ s : State, s.faulted = false → s.pc.toNat ≤ 0x0FFE → s.mem.read s.pc.toNat = 0 → s.mem.read (s.pc.toNat + 1) = 0 →
    ∃ t, step s = .next t ∧ t.faulted = false ∧ t.pc = s.pc + 2

/-- R88: a faulted core does nothing, however many cycles are invoked. -/
def Obligations.FaultedCoreDoesNothing : Prop :=
  ∀ (n : Nat) (s : State), s.faulted = true → Sys2Proof.core.run n s = .next s

/-- Every step has a next state: no instruction word, no data and no input stops the machine. A fault is a next state
by the model's reading of R204 (log entry 2). -/
def Obligations.EveryStepHasNextState : Prop := ∀ s : State, ∃ t, step s = .next t

/-- R202, R204: a cycle faults exactly under the conditions of the table, so the instructions with none never fault,
and the record then says which row it was, with its code, its `FIR` and its `FINFO`. The row of `DISPLAY_RANGE` is the
reference sink's; that the other two sinks of R225 never raise it is the model's choice (log entry 6). -/
def Obligations.FaultsAreTheTable : Prop :=
  ∀ s t : State, s.faulted = false → step s = .next t →
    (t.faulted = true ↔ CycleFaults s) ∧ (t.faulted = true → RecordExplains t)

/-- R89, R204, R205: a cycle that faults keeps no change of core state, `PC` included; `FPC` is the address of the
instruction, `FIR` its word, or 0 when the fetch faulted; and only `DISPLAY_RANGE` (code 7) may have changed pixels. -/
def Obligations.FaultsArePrecise : Prop :=
  ∀ s t : State, s.faulted = false → step s = .next t → t.faulted = true →
    KeepsV s t ∧ t.index = s.index ∧ t.pc = s.pc ∧ KeepsStack s t ∧ t.dt = s.dt ∧ t.st = s.st ∧ KeepsMem s t ∧
    t.faultRec.fpc = s.pc ∧ (t.faultRec.fcause = 1 → t.faultRec.fir = 0) ∧
    (t.faultRec.fcause ≠ 1 → t.faultRec.fir = s.fetchWord) ∧ (t.faultRec.fcause ≠ 7 → KeepsPixels s t)

/-- R203: a sprite that leaves memory raises `DATA_RANGE` (code 2) also when a set bit of it is off the grid, and a
fetch out of range raises `FETCH_RANGE` (code 1) whatever word stands there. -/
def Obligations.FaultPriority : Prop :=
  ∀ s t : State, s.faulted = false → step s = .next t →
    (0x0FFE < s.pc.toNat → t.faultRec.fcause = 1) ∧
    (s.pc.toNat ≤ 0x0FFE → ∀ x y n, decodeWord s.fetchWord = some (.drw x y n) → ¬ s.spriteInMemory n →
      t.faultRec.fcause = 2)

/-- R87: a cycle that does not fault decrements `DT`, if above 0, after the instruction: the value decremented is the
one an `FX15` of the same cycle wrote, else the old one; an `FX07` reads it before; `ST` is not decremented. -/
def Obligations.TimerDecrementsOncePerCycle : Prop :=
  ∀ s t : State, s.faulted = false → step s = .next t → t.faulted = false →
    t.dt.toNat =
      (match decodeWord s.fetchWord with
       | some (.ldDtVx x) => (s.getV x).toNat
       | _ => s.dt.toNat) - 1 ∧
    (∀ x, decodeWord s.fetchWord = some (.ldVxDt x) → t.getV x = s.dt) ∧ t.st = s.st

/-- R173: after `k` cycles without `FX15` and without a fault, `DT = max(N - k, 0)`. -/
def Obligations.DelayTimerDecays : Prop :=
  ∀ (run : Nat → State) (k : Nat),
    (∀ j < k, (run j).faulted = false ∧ step (run j) = .next (run (j + 1)) ∧ (run (j + 1)).faulted = false ∧
      ∀ x, decodeWord (run j).fetchWord ≠ some (.ldDtVx x)) →
    (run k).dt.toNat = (run 0).dt.toNat - k

/-- R43, R51: no step writes memory. -/
def Obligations.MemoryIsNeverWritten : Prop := ∀ s t : State, step s = .next t → KeepsMem s t

/-- R18: the sound timer is 0 at reset, no step changes it, and no step reads it: with another value in it the step
does the same. -/
def Obligations.SoundTimerIsDead : Prop :=
  State.reset.st = 0 ∧ ∀ s t : State, step s = .next t →
    t.st = s.st ∧ ∀ b : Byte, step { s with st := b } = .next { t with st := b }

/-- R10's table of writers: a step that changes `V[y]` ran an instruction whose destination is `V[y]`, `DXYN` having
`V[15]`. -/
def Obligations.OnlyDestinationRegisterChanges : Prop :=
  ∀ (s t : State) (y : Reg), step s = .next t → t.getV y ≠ s.getV y →
    ∃ i, decodeWord s.fetchWord = some i ∧
      ((∃ nn, i = .ldVxNn y nn) ∨ (∃ nn, i = .addVxNn y nn) ∨ (∃ z, i = .ldVxVy y z) ∨ (∃ nn, i = .rndVxNn y nn) ∨
       i = .ldVxDt y ∨ (y = 15 ∧ ∃ a b n, i = .drw a b n))

/-- R15, R24, R126, R130: who writes the rest. `I` changes only under `ANNN` and `FX1E`; a slot or `SP` only under
`2NNN` and `00EE`, and slots never under `00EE`; a pixel only under `DXYN`; and only `CXNN` takes a random
byte (from the model's list of them, log entry 4). -/
def Obligations.OnlyOwnersWrite : Prop :=
  ∀ s t : State, step s = .next t →
    (t.index ≠ s.index → ∃ i, decodeWord s.fetchWord = some i ∧ ((∃ nnn, i = .ldINnn nnn) ∨ ∃ x, i = .addIVx x)) ∧
    (t.sp ≠ s.sp → ∃ i, decodeWord s.fetchWord = some i ∧ ((∃ nnn, i = .call nnn) ∨ i = .ret)) ∧
    ((∃ k, t.slot k ≠ s.slot k) → ∃ nnn, decodeWord s.fetchWord = some (.call nnn)) ∧
    (¬ KeepsPixels s t → ∃ x y n, decodeWord s.fetchWord = some (.drw x y n)) ∧
    (t.rndIn ≠ s.rndIn → ∃ x nn, decodeWord s.fetchWord = some (.rndVxNn x nn))

/-! ### Return, jump, call (spec/41_flow.md) -/

/-- R101: exactly `0x00EE` is `RET`. With `SP > 0` it puts the slot at `SP` in `PC` and decrements `SP`, the slot
keeping its value, and nothing else changes; with `SP = 0` it raises `STACK_UNDERFLOW` with `FINFO = 0`. -/
def Obligations.RetReturns : Prop :=
  (∀ w : Word, decodeWord w = some .ret ↔ w = 0x00EE) ∧
  (∀ s : State, s.sp ≠ 0 →
    ∃ t, exec .ret s = .next t ∧ t.pc = s.slot s.sp ∧ t.sp.toNat = s.sp.toNat - 1 ∧ (∀ k, t.slot k = s.slot k) ∧
      KeepsV s t ∧ t.index = s.index ∧ t.dt = s.dt ∧ KeepsOutside s t ∧ Quiet s t) ∧
  ∀ s : State, s.sp = 0 →
    ∃ t, exec .ret s = .next t ∧ FaultedAs .ret .stackUnderflow 0 s t ∧ KeepsPixels s t ∧ t.events = s.events

/-- R102: `1NNN` puts `NNN`, zero-extended, in `PC`, and changes nothing else. -/
def Obligations.JpJumps : Prop :=
  (∀ w : Word, nibble w 3 = 0x1 → ∃ nnn, decodeWord w = some (.jp nnn) ∧ nnn.toNat = w.toNat % 4096) ∧
  ∀ (nnn : Addr) (s : State), ∃ t, exec (.jp nnn) s = .next t ∧ t.pc.toNat = nnn.toNat ∧ OnlyPc s t

/-- R102, R234: a jump to its own address is a fixed point of the step but for the timer, and the keypad inputs and
the cycle number, which are the model's own fields (log entries 3 and 5). -/
def Obligations.SelfJumpOnlyCountsTime : Prop :=
  ∀ (s : State) (nnn : Addr), s.faulted = false → s.pc.toNat ≤ 0x0FFE →
    decodeWord s.fetchWord = some (.jp nnn) → nnn.toNat = s.pc.toNat →
      ∃ t, step s = .next t ∧ { t with dt := s.dt, keyIn := s.keyIn, cycle := s.cycle } = s

/-- R103: `2NNN` with `SP < 15` increments `SP`, writes the address after the call in the new slot, and puts `NNN` in
`PC`; every other slot and everything else is unchanged. With `SP = 15` it raises `STACK_OVERFLOW` with `FINFO = 16`. -/
def Obligations.CallPushesReturnAddress : Prop :=
  (∀ w : Word, nibble w 3 = 0x2 → ∃ nnn, decodeWord w = some (.call nnn) ∧ nnn.toNat = w.toNat % 4096) ∧
  (∀ (nnn : Addr) (s : State), s.sp ≠ 15 →
    ∃ t, exec (.call nnn) s = .next t ∧ t.sp.toNat = s.sp.toNat + 1 ∧ t.slot t.sp = s.pc ∧
      (∀ k, k ≠ t.sp → t.slot k = s.slot k) ∧ t.pc.toNat = nnn.toNat ∧
      KeepsV s t ∧ t.index = s.index ∧ t.dt = s.dt ∧ KeepsOutside s t ∧ Quiet s t) ∧
  ∀ (nnn : Addr) (s : State), s.sp = 15 →
    ∃ t, exec (.call nnn) s = .next t ∧ FaultedAs (.call nnn) .stackOverflow 16 s t ∧ KeepsPixels s t ∧
      t.events = s.events

/-- R104: a call executed with `SP < 15`, whose target holds `00EE`, is undone two cycles later: `PC` is the address
after the call and `SP` is as before; the slot remains. -/
def Obligations.CallThenReturn : Prop :=
  ∀ (s : State) (nnn : Addr), s.faulted = false → s.pc.toNat ≤ 0x0FFE → decodeWord s.fetchWord = some (.call nnn) →
    s.sp ≠ 15 → nnn.toNat ≤ 0x0FFE → s.mem.read nnn.toNat = 0x00 → s.mem.read (nnn.toNat + 1) = 0xEE →
      ∃ t, Sys2Proof.core.run 2 s = .next t ∧ t.faulted = false ∧ t.pc = s.pc + 2 ∧ t.sp = s.sp ∧
        t.slot (s.sp + 1) = s.pc + 2

/-! ### Skips (spec/42_skip.md, spec/46_keypad.md) -/

/-- R111: `3XNN` skips exactly when `V[X] = NN`, and changes nothing but `PC`. -/
def Obligations.SeSkipsOnEqual : Prop :=
  (∀ w : Word, nibble w 3 = 0x3 → ∃ x nn, decodeWord w = some (.seVxNn x nn) ∧
    x.val = nibble w 2 ∧ nn.toNat = w.toNat % 256) ∧
  ∀ (x : Reg) (nn : Byte) (s : State), ∃ t, exec (.seVxNn x nn) s = .next t ∧
    (s.getV x = nn → t.pc = s.pc + 2) ∧ (s.getV x ≠ nn → t.pc = s.pc) ∧ OnlyPc s t

/-- R112: `4XNN` skips exactly when `V[X] != NN`, and changes nothing but `PC`. -/
def Obligations.SneSkipsOnDifferent : Prop :=
  (∀ w : Word, nibble w 3 = 0x4 → ∃ x nn, decodeWord w = some (.sneVxNn x nn) ∧
    x.val = nibble w 2 ∧ nn.toNat = w.toNat % 256) ∧
  ∀ (x : Reg) (nn : Byte) (s : State), ∃ t, exec (.sneVxNn x nn) s = .next t ∧
    (s.getV x ≠ nn → t.pc = s.pc + 2) ∧ (s.getV x = nn → t.pc = s.pc) ∧ OnlyPc s t

/-- R113: `9XY0` skips exactly when the two registers are EQUAL, and changes nothing but `PC`. -/
def Obligations.Se9SkipsOnEqual : Prop :=
  (∀ w : Word, nibble w 3 = 0x9 →
    (nibble w 0 = 0 → ∃ x y, decodeWord w = some (.se9VxVy x y) ∧ x.val = nibble w 2 ∧ y.val = nibble w 1) ∧
    (nibble w 0 ≠ 0 → decodeWord w = none)) ∧
  ∀ (x y : Reg) (s : State), ∃ t, exec (.se9VxVy x y) s = .next t ∧
    (s.getV x = s.getV y → t.pc = s.pc + 2) ∧ (s.getV x ≠ s.getV y → t.pc = s.pc) ∧ OnlyPc s t

/-- R114: under `V[X] = NN` a `3XNN` cycle advances `PC` by 4 and a `4XNN` cycle by 2, and under `V[X] != NN` the other
way round, wherever the two words stand. -/
def Obligations.SkipsAreComplementary : Prop :=
  ∀ (s u : State) (x : Reg) (nn : Byte), s.faulted = false → u.faulted = false →
    s.pc.toNat ≤ 0x0FFE → u.pc.toNat ≤ 0x0FFE → u.getV x = s.getV x →
    decodeWord s.fetchWord = some (.seVxNn x nn) → decodeWord u.fetchWord = some (.sneVxNn x nn) →
      ∃ t r, step s = .next t ∧ step u = .next r ∧
        (s.getV x = nn → t.pc = s.pc + 4 ∧ r.pc = u.pc + 2) ∧
        (s.getV x ≠ nn → t.pc = s.pc + 2 ∧ r.pc = u.pc + 4)

/-- R163: `EX9E` with `V[X]` at most 15 skips exactly when key `V[X]` is pressed, and changes nothing but `PC`; with
`V[X]` above 15 it raises `KEY_RANGE` with `FINFO = V[X]` (R161). -/
def Obligations.SkpSkipsOnPressed : Prop :=
  (∀ w : Word, nibble w 3 = 0xE → w.toNat % 256 = 0x9E → ∃ x, decodeWord w = some (.skp x) ∧ x.val = nibble w 2) ∧
  (∀ (x : Reg) (s : State), (s.getV x).toNat ≤ 15 → ∃ t, exec (.skp x) s = .next t ∧
    (s.key (s.getV x).toNat = true → t.pc = s.pc + 2) ∧ (s.key (s.getV x).toNat = false → t.pc = s.pc) ∧ OnlyPc s t) ∧
  ∀ (x : Reg) (s : State), 15 < (s.getV x).toNat → ∃ t, exec (.skp x) s = .next t ∧
    FaultedAs (.skp x) .keyRange (s.getV x).toNat s t ∧ KeepsPixels s t ∧ t.events = s.events

/-- R164: `EXA1` with `V[X]` at most 15 skips exactly when key `V[X]` is not pressed, and changes nothing but `PC`;
with `V[X]` above 15 it raises `KEY_RANGE` with `FINFO = V[X]` (R161). -/
def Obligations.SknpSkipsOnReleased : Prop :=
  (∀ w : Word, nibble w 3 = 0xE → w.toNat % 256 = 0xA1 → ∃ x, decodeWord w = some (.sknp x) ∧ x.val = nibble w 2) ∧
  (∀ (x : Reg) (s : State), (s.getV x).toNat ≤ 15 → ∃ t, exec (.sknp x) s = .next t ∧
    (s.key (s.getV x).toNat = false → t.pc = s.pc + 2) ∧ (s.key (s.getV x).toNat = true → t.pc = s.pc) ∧ OnlyPc s t) ∧
  ∀ (x : Reg) (s : State), 15 < (s.getV x).toNat → ∃ t, exec (.sknp x) s = .next t ∧
    FaultedAs (.sknp x) .keyRange (s.getV x).toNat s t ∧ KeepsPixels s t ∧ t.events = s.events

/-! ### Register and index instructions (spec/43_register.md, spec/44_index.md) -/

/-- R121: `6XNN` loads the immediate; only `V[X]` changes. -/
def Obligations.LdLoadsImmediate : Prop :=
  (∀ w : Word, nibble w 3 = 0x6 → ∃ x nn, decodeWord w = some (.ldVxNn x nn) ∧
    x.val = nibble w 2 ∧ nn.toNat = w.toNat % 256) ∧
  ∀ (x : Reg) (nn : Byte) (s : State), ∃ t, exec (.ldVxNn x nn) s = .next t ∧ t.getV x = nn ∧ OnlyV x s t ∧
    t.rndIn = s.rndIn

/-- R122: `7XNN` adds modulo 256; only `V[X]` changes, so no carry flag is written. -/
def Obligations.AddAddsModulo256 : Prop :=
  (∀ w : Word, nibble w 3 = 0x7 → ∃ x nn, decodeWord w = some (.addVxNn x nn) ∧
    x.val = nibble w 2 ∧ nn.toNat = w.toNat % 256) ∧
  ∀ (x : Reg) (nn : Byte) (s : State), ∃ t, exec (.addVxNn x nn) s = .next t ∧
    (t.getV x).toNat = ((s.getV x).toNat + nn.toNat) % 256 ∧ OnlyV x s t ∧ t.rndIn = s.rndIn

/-- R123: `8XY0` copies `V[Y]` to `V[X]`; only `V[X]` changes. -/
def Obligations.LdCopiesRegister : Prop :=
  (∀ w : Word, nibble w 3 = 0x8 →
    (nibble w 0 = 0 → ∃ x y, decodeWord w = some (.ldVxVy x y) ∧ x.val = nibble w 2 ∧ y.val = nibble w 1) ∧
    (nibble w 0 ≠ 0 → decodeWord w = none)) ∧
  ∀ (x y : Reg) (s : State), ∃ t, exec (.ldVxVy x y) s = .next t ∧ t.getV x = s.getV y ∧ OnlyV x s t ∧
    t.rndIn = s.rndIn

/-- R124, R126: `CXNN` puts the byte of the random source AND `NN` in `V[X]`, and takes exactly one byte (of the
model's list of them, log entry 4); nothing else changes. -/
def Obligations.RndAndsRandomByte : Prop :=
  (∀ w : Word, nibble w 3 = 0xC → ∃ x nn, decodeWord w = some (.rndVxNn x nn) ∧
    x.val = nibble w 2 ∧ nn.toNat = w.toNat % 256) ∧
  ∀ (x : Reg) (nn : Byte) (s : State), ∃ t, exec (.rndVxNn x nn) s = .next t ∧ t.getV x = s.rnd &&& nn ∧
    OnlyV x s t ∧ t.rndIn = s.rndIn.tail

/-- R125: `6XNN` followed by `7X00` leaves `V[X] = NN`, two cycles later. -/
def Obligations.LoadThenZeroAddIsIdentity : Prop :=
  ∀ (s : State) (x : Reg) (nn : Byte), s.faulted = false → s.pc.toNat ≤ 0x0FFC →
    decodeWord s.fetchWord = some (.ldVxNn x nn) →
    decodeWord { s with pc := s.pc + 2 }.fetchWord = some (.addVxNn x 0) →
      ∃ t, Sys2Proof.core.run 2 s = .next t ∧ t.getV x = nn ∧ t.pc = s.pc + 4

/-- R131: `ANNN` puts `NNN`, zero-extended, in `I`; nothing else changes. -/
def Obligations.LdISetsIndex : Prop :=
  (∀ w : Word, nibble w 3 = 0xA → ∃ nnn, decodeWord w = some (.ldINnn nnn) ∧ nnn.toNat = w.toNat % 4096) ∧
  ∀ (nnn : Addr) (s : State), ∃ t, exec (.ldINnn nnn) s = .next t ∧ t.index.toNat = nnn.toNat ∧
    KeepsV s t ∧ t.pc = s.pc ∧ KeepsStack s t ∧ t.dt = s.dt ∧ KeepsOutside s t ∧ Quiet s t

/-- R132: `FX1E` adds `V[X]` to `I` when the sum fits 16 bits, with no reduction modulo 4096 and no flag; otherwise it
raises `INDEX_OVERFLOW` with the 17-bit sum. -/
def Obligations.AddIAddsOrFaults : Prop :=
  (∀ w : Word, nibble w 3 = 0xF → w.toNat % 256 = 0x1E → ∃ x, decodeWord w = some (.addIVx x) ∧ x.val = nibble w 2) ∧
  ∀ (x : Reg) (s : State),
    (s.index.toNat + (s.getV x).toNat ≤ 0xFFFF →
      ∃ t, exec (.addIVx x) s = .next t ∧ t.index.toNat = s.index.toNat + (s.getV x).toNat ∧
        KeepsV s t ∧ t.pc = s.pc ∧ KeepsStack s t ∧ t.dt = s.dt ∧ KeepsOutside s t ∧ Quiet s t) ∧
    (0xFFFF < s.index.toNat + (s.getV x).toNat →
      ∃ t, exec (.addIVx x) s = .next t ∧
        FaultedAs (.addIVx x) .indexOverflow (s.index.toNat + (s.getV x).toNat) s t ∧ KeepsPixels s t ∧
        t.events = s.events)

/-! ### Timers (spec/47_timer.md) -/

/-- R171: a cycle of `FX07` gives `V[X]` the old `DT`, and then decrements `DT`; no other register changes. -/
def Obligations.LdVxDtReadsTimer : Prop :=
  (∀ w : Word, nibble w 3 = 0xF → w.toNat % 256 = 0x07 → ∃ x, decodeWord w = some (.ldVxDt x) ∧ x.val = nibble w 2) ∧
  (∀ (x : Reg) (s : State), ∃ t, exec (.ldVxDt x) s = .next t ∧ t.getV x = s.dt ∧ OnlyV x s t ∧ t.rndIn = s.rndIn) ∧
  ∀ (x : Reg) (s : State), s.faulted = false → s.pc.toNat ≤ 0x0FFE → decodeWord s.fetchWord = some (.ldVxDt x) →
    ∃ t, step s = .next t ∧ t.getV x = s.dt ∧ t.dt.toNat = s.dt.toNat - 1

/-- R172: a cycle of `FX15` leaves `DT = V[X] - 1`, or 0 when `V[X]` is 0. -/
def Obligations.LdDtVxWritesTimer : Prop :=
  (∀ w : Word, nibble w 3 = 0xF → w.toNat % 256 = 0x15 → ∃ x, decodeWord w = some (.ldDtVx x) ∧ x.val = nibble w 2) ∧
  (∀ (x : Reg) (s : State), ∃ t, exec (.ldDtVx x) s = .next t ∧ t.dt = s.getV x ∧ KeepsV s t ∧ t.index = s.index ∧
    t.pc = s.pc ∧ KeepsStack s t ∧ KeepsOutside s t ∧ Quiet s t) ∧
  ∀ (x : Reg) (s : State), s.faulted = false → s.pc.toNat ≤ 0x0FFE → decodeWord s.fetchWord = some (.ldDtVx x) →
    ∃ t, step s = .next t ∧ t.dt.toNat = (s.getV x).toNat - 1

/-! ### Draw (spec/45_draw.md) -/

/-- R141, R142, R144 to R146 with the reference sink: a sprite in memory whose set bits are all on the grid completes.
Each pixel of a set bit is complemented and no other pixel changes; `V[15]` is 1 when a pixel of a set bit was on, else
0; no other register, nor `I`, `PC`, the stack, `DT` or memory changes. `X` and `Y` may be 15: the coordinates are the
old values. A repaint is signalled when the sprite has a set bit (R147, log entry 10). Which sink the platform
has is a field of the model's state (log entry 6). -/
def Obligations.DrawTogglesSetBits : Prop :=
  ∀ (x y : Reg) (n : Nat) (s : State), s.sink = .strict → s.spriteInMemory n →
    (∀ px py, s.spriteAt x y n px py → GridPixel px py) →
      ∃ t, exec (.drw x y n) s = .next t ∧
        (∀ px py, px < 64 → py < 32 →
          (s.spriteAt x y n px py → t.fb.pixel px py = !s.fb.pixel px py) ∧
          (¬ s.spriteAt x y n px py → t.fb.pixel px py = s.fb.pixel px py)) ∧
        ((∃ px py, s.spriteAt x y n px py ∧ s.fb.pixel px py = true) → t.getV 15 = 1) ∧
        ((¬ ∃ px py, s.spriteAt x y n px py ∧ s.fb.pixel px py = true) → t.getV 15 = 0) ∧
        KeepsVBut 15 s t ∧ t.index = s.index ∧ t.pc = s.pc ∧ KeepsStack s t ∧ t.dt = s.dt ∧ t.rndIn = s.rndIn ∧
        Quiet s t ∧
        ((∃ px py, s.spriteAt x y n px py) → t.events = .repaint :: s.events) ∧
        ((¬ ∃ px py, s.spriteAt x y n px py) → t.events = s.events)

/-- R225, the `ignore` sink: every sprite in memory completes; on the grid as with the reference sink, off the grid a
pixel reads as off and nothing is written. Modelling this sink is the model's choice (log entry 6). -/
def Obligations.DrawOnIgnoringSink : Prop :=
  ∀ (x y : Reg) (n : Nat) (s : State), s.sink = .ignore → s.spriteInMemory n →
    ∃ t, exec (.drw x y n) s = .next t ∧
      (∀ px py, px < 64 → py < 32 →
        (s.spriteAt x y n px py → t.fb.pixel px py = !s.fb.pixel px py) ∧
        (¬ s.spriteAt x y n px py → t.fb.pixel px py = s.fb.pixel px py)) ∧
      ((∃ px py, GridPixel px py ∧ s.spriteAt x y n px py ∧ s.fb.pixel px py = true) → t.getV 15 = 1) ∧
      ((¬ ∃ px py, GridPixel px py ∧ s.spriteAt x y n px py ∧ s.fb.pixel px py = true) → t.getV 15 = 0) ∧
      KeepsVBut 15 s t ∧ t.index = s.index ∧ t.pc = s.pc ∧ KeepsStack s t ∧ t.dt = s.dt ∧ t.rndIn = s.rndIn ∧ Quiet s t

/-- R225, the `wrap` sink: every sprite in memory completes, and the pixel toggled for a set bit is the one its
coordinates give modulo 64 and modulo 32. Modelling this sink is the model's choice (log entry 6). -/
def Obligations.DrawOnWrappingSink : Prop :=
  ∀ (x y : Reg) (n : Nat) (s : State), s.sink = .wrap → n ≤ 15 → s.spriteInMemory n →
    ∃ t, exec (.drw x y n) s = .next t ∧
      (∀ px py, px < 64 → py < 32 →
        ((∃ qx qy, s.spriteAt x y n qx qy ∧ qx % 64 = px ∧ qy % 32 = py) → t.fb.pixel px py = !s.fb.pixel px py) ∧
        ((¬ ∃ qx qy, s.spriteAt x y n qx qy ∧ qx % 64 = px ∧ qy % 32 = py) → t.fb.pixel px py = s.fb.pixel px py)) ∧
      ((∃ qx qy, s.spriteAt x y n qx qy ∧ s.fb.pixel (qx % 64) (qy % 32) = true) → t.getV 15 = 1) ∧
      ((¬ ∃ qx qy, s.spriteAt x y n qx qy ∧ s.fb.pixel (qx % 64) (qy % 32) = true) → t.getV 15 = 0) ∧
      KeepsVBut 15 s t ∧ t.index = s.index ∧ t.pc = s.pc ∧ KeepsStack s t ∧ t.dt = s.dt ∧ t.rndIn = s.rndIn ∧ Quiet s t

/-- R143: a sprite whose last row is above 0x0FFF raises `DATA_RANGE` with the first address out of range, whatever the
sink, before any pixel is touched; with no row there is no fault, whatever `I` holds. -/
def Obligations.SpriteOutOfMemoryFaults : Prop :=
  (∀ (x y : Reg) (n : Nat) (s : State), 0 < n → 0x0FFF < s.index.toNat + n - 1 →
    ∃ t, exec (.drw x y n) s = .next t ∧
      FaultedAs (.drw x y n) .dataRange (if 0x0FFF < s.index.toNat then s.index.toNat else 0x1000) s t ∧
      KeepsPixels s t ∧ t.events = s.events) ∧
  ∀ (x y : Reg) (s : State), ∃ t, exec (.drw x y 0) s = .next t ∧ t.faultRec = s.faultRec

/-- R148: with the reference sink the first set bit, row by row and in a row from column 0, whose pixel is off the grid
raises `DISPLAY_RANGE` with `FINFO = (y << 16) | x`; the set bits before it are toggled, no other pixel changes, and
core state is unchanged. Which sink the platform has is a field of the model's state (log entry 6). -/
def Obligations.OffGridPixelFaults : Prop :=
  ∀ (x y : Reg) (n r c : Nat) (s : State), s.sink = .strict → n ≤ 15 → s.spriteInMemory n → r < n → s.bitSet r c →
    ¬ GridPixel ((s.getV x).toNat + c) ((s.getV y).toNat + r) →
    (∀ r' c', s.bitSet r' c' → r' < r ∨ (r' = r ∧ c' < c) →
      GridPixel ((s.getV x).toNat + c') ((s.getV y).toNat + r')) →
      ∃ t, exec (.drw x y n) s = .next t ∧
        FaultedAs (.drw x y n) .displayRange (((s.getV y).toNat + r) * 65536 + ((s.getV x).toNat + c)) s t ∧
        (∀ px py, px < 64 → py < 32 →
          ((∃ r' c', s.bitSet r' c' ∧ (r' < r ∨ (r' = r ∧ c' < c)) ∧
              px = (s.getV x).toNat + c' ∧ py = (s.getV y).toNat + r') →
            t.fb.pixel px py = !s.fb.pixel px py) ∧
          ((¬ ∃ r' c', s.bitSet r' c' ∧ (r' < r ∨ (r' = r ∧ c' < c)) ∧
              px = (s.getV x).toNat + c' ∧ py = (s.getV y).toNat + r') →
            t.fb.pixel px py = s.fb.pixel px py))

/-- R149: with `N = 0`, whatever `I` and the sink, `V[15]` becomes 0 and nothing else changes. -/
def Obligations.DrawZeroRowsClearsFlag : Prop :=
  ∀ (x y : Reg) (s : State), ∃ t, exec (.drw x y 0) s = .next t ∧ t.getV 15 = 0 ∧ OnlyV 15 s t ∧ t.rndIn = s.rndIn

/-- R150: drawing the same sprite twice, `X` and `Y` not 15, restores every pixel, and the second draw gives
`V[15] = 1` exactly when the sprite has a set bit whose pixel was off before the first. The sink is a field of the
model's state (log entry 6). -/
def Obligations.DrawTwiceRestoresDisplay : Prop :=
  ∀ (x y : Reg) (n : Nat) (s : State), x ≠ 15 → y ≠ 15 → s.sink = .strict → s.spriteInMemory n →
    (∀ px py, s.spriteAt x y n px py → GridPixel px py) →
      ∃ t u, exec (.drw x y n) s = .next t ∧ exec (.drw x y n) t = .next u ∧ KeepsPixels s u ∧
        ((∃ px py, s.spriteAt x y n px py ∧ s.fb.pixel px py = false) → u.getV 15 = 1) ∧
        ((¬ ∃ px py, s.spriteAt x y n px py ∧ s.fb.pixel px py = false) → u.getV 15 = 0)

/-! ### Invariant -/

/-- The reset state meets the invariant. -/
def Obligations.ResetMeetsInvariant : Prop := Inv State.reset

/-- Every launch state meets the invariant: memory is canonical whatever bytes are loaded (R255, R256). It ranges over
lists of any length, as the model's launch does: the bytes it would put above 0xFFF are dropped, where R230 calls a
longer program an error outside the spec (log entry 11). -/
def Obligations.LaunchMeetsInvariant : Prop := ∀ font program : List Byte, Inv (launch font program)

/-- Every step keeps the invariant (R14, R16 to R18, R21, R202). -/
def Obligations.StepKeepsInvariant : Prop := ∀ s t : State, Inv s → step s = .next t → Inv t

/-- A reset event (an operation beside the step, log entry 12) keeps the invariant and ends a fault. -/
def Obligations.ResetEventKeepsInvariant : Prop := ∀ s : State, Inv s → Inv (coreReset s) ∧ (coreReset s).faulted = false

/-- R207: a run has taken at most one fault. From a state that meets the invariant, if `n` cycles end faulted, then the
record is the one the first faulting cycle wrote, and any longer run ends in the same state. -/
def Obligations.FaultIsFinal : Prop :=
  ∀ (n m : Nat) (s t : State), Inv s → Sys2Proof.core.run n s = .next t → t.faulted = true →
    RecordExplains t ∧ Sys2Proof.core.run (n + m) s = .next t
end

