-- ==== Sys2Proof/Laws/Decode.lean ====
section
/-! SUPPORT. Fields, words and bytes as numbers; the fields of an assembled word. -/

namespace Sys2Proof

/-! ### Fields of a word, by arithmetic (R61) -/

theorem fieldOp_toNat (w : Word) : (fieldOp w).toNat = w.toNat / 4096 := by
  have := w.isLt
  simp only [fieldOp, BitVec.extractLsb'_toNat, Nat.shiftRight_eq_div_pow]; omega

theorem fieldX_val (w : Word) : (fieldX w).val = w.toNat / 256 % 16 := by
  simp only [fieldX, BitVec.extractLsb'_toNat, Nat.shiftRight_eq_div_pow]

theorem fieldY_val (w : Word) : (fieldY w).val = w.toNat / 16 % 16 := by
  simp only [fieldY, BitVec.extractLsb'_toNat, Nat.shiftRight_eq_div_pow]

theorem fieldN_eq (w : Word) : fieldN w = w.toNat % 16 := by
  simp only [fieldN, BitVec.extractLsb'_toNat, Nat.shiftRight_eq_div_pow]; omega

theorem fieldNN_toNat (w : Word) : (fieldNN w).toNat = w.toNat % 256 := by
  simp only [fieldNN, BitVec.extractLsb'_toNat, Nat.shiftRight_eq_div_pow]; omega

theorem fieldNNN_toNat (w : Word) : (fieldNNN w).toNat = w.toNat % 4096 := by
  simp only [fieldNNN, BitVec.extractLsb'_toNat, Nat.shiftRight_eq_div_pow]; omega

/-! ### Words assembled from fields and bytes -/

theorem toNat_append_eq {m n : Nat} (a : BitVec m) (b : BitVec n) : (a ++ b).toNat = a.toNat * 2 ^ n + b.toNat := by
  rw [BitVec.toNat_append, ← Nat.shiftLeft_add_eq_or_of_lt b.isLt, Nat.shiftLeft_eq]

theorem regBits_toNat (x : Reg) : (regBits x).toNat = x.val := by
  simp only [regBits, BitVec.toNat_ofNat]; omega

theorem wordNNN_toNat (op : BitVec 4) (nnn : Addr) : (wordNNN op nnn).toNat = op.toNat * 4096 + nnn.toNat :=
  toNat_append_eq op nnn

theorem wordXNN_toNat (op : BitVec 4) (x : Reg) (nn : Byte) :
    (wordXNN op x nn).toNat = op.toNat * 4096 + x.val * 256 + nn.toNat := by
  rw [wordXNN, toNat_append_eq (op ++ regBits x) nn, toNat_append_eq op (regBits x), regBits_toNat]; omega

theorem wordXYN_toNat (op : BitVec 4) (x y : Reg) (n : Nat) :
    (wordXYN op x y n).toNat = op.toNat * 4096 + x.val * 256 + y.val * 16 + n % 16 := by
  rw [wordXYN, toNat_append_eq (op ++ regBits x ++ regBits y) (BitVec.ofNat 4 n),
    toNat_append_eq (op ++ regBits x) (regBits y), toNat_append_eq op (regBits x), regBits_toNat, regBits_toNat,
    BitVec.toNat_ofNat]
  omega

theorem wordOfBytes_toNat (hi lo : Byte) : (wordOfBytes hi lo).toNat = 256 * hi.toNat + lo.toNat := by
  rw [wordOfBytes, toNat_append_eq hi lo]; omega

/-- A word is its two bytes, high byte first (R45). -/
theorem wordOfBytes_highByte_lowByte (w : Word) : wordOfBytes (highByte w) (lowByte w) = w := by
  apply BitVec.eq_of_toNat_eq
  have := w.isLt
  rw [wordOfBytes_toNat]
  simp only [highByte, lowByte, BitVec.extractLsb'_toNat, Nat.shiftRight_eq_div_pow]; omega

/-! ### The fields of an assembled word, and a word from its fields (R61) -/

theorem fieldOp_wordNNN (op : BitVec 4) (a : Addr) : fieldOp (wordNNN op a) = op :=
  BitVec.eq_of_toNat_eq (by rw [fieldOp_toNat, wordNNN_toNat]; omega)
theorem fieldNNN_wordNNN (op : BitVec 4) (a : Addr) : fieldNNN (wordNNN op a) = a :=
  BitVec.eq_of_toNat_eq (by rw [fieldNNN_toNat, wordNNN_toNat]; omega)
theorem fieldOp_wordXNN (op : BitVec 4) (x : Reg) (a : Byte) : fieldOp (wordXNN op x a) = op :=
  BitVec.eq_of_toNat_eq (by rw [fieldOp_toNat, wordXNN_toNat]; omega)
theorem fieldX_wordXNN (op : BitVec 4) (x : Reg) (a : Byte) : fieldX (wordXNN op x a) = x :=
  Fin.ext (by rw [fieldX_val, wordXNN_toNat]; omega)
theorem fieldNN_wordXNN (op : BitVec 4) (x : Reg) (a : Byte) : fieldNN (wordXNN op x a) = a :=
  BitVec.eq_of_toNat_eq (by rw [fieldNN_toNat, wordXNN_toNat]; omega)
theorem fieldOp_wordXYN (op : BitVec 4) (x y : Reg) (n : Nat) : fieldOp (wordXYN op x y n) = op :=
  BitVec.eq_of_toNat_eq (by rw [fieldOp_toNat, wordXYN_toNat]; omega)
theorem fieldX_wordXYN (op : BitVec 4) (x y : Reg) (n : Nat) : fieldX (wordXYN op x y n) = x :=
  Fin.ext (by rw [fieldX_val, wordXYN_toNat]; omega)
theorem fieldY_wordXYN (op : BitVec 4) (x y : Reg) (n : Nat) : fieldY (wordXYN op x y n) = y :=
  Fin.ext (by rw [fieldY_val, wordXYN_toNat]; omega)
theorem fieldN_wordXYN (op : BitVec 4) (x y : Reg) (n : Nat) : fieldN (wordXYN op x y n) = n % 16 := by
  rw [fieldN_eq, wordXYN_toNat]; omega

theorem wordNNN_fields {w : Word} {op : BitVec 4} (h : fieldOp w = op) : wordNNN op (fieldNNN w) = w := by
  subst h; apply BitVec.eq_of_toNat_eq; rw [wordNNN_toNat, fieldOp_toNat, fieldNNN_toNat]; omega
theorem wordXNN_fields {w : Word} {op : BitVec 4} (h : fieldOp w = op) : wordXNN op (fieldX w) (fieldNN w) = w := by
  subst h; apply BitVec.eq_of_toNat_eq; rw [wordXNN_toNat, fieldOp_toNat, fieldX_val, fieldNN_toNat]; omega
theorem wordXYN_fields {w : Word} {op : BitVec 4} (h : fieldOp w = op) :
    wordXYN op (fieldX w) (fieldY w) (fieldN w) = w := by
  subst h; apply BitVec.eq_of_toNat_eq; rw [wordXYN_toNat, fieldOp_toNat, fieldX_val, fieldY_val, fieldN_eq]; omega

/-! ### The masks of the opcode table, by arithmetic (R63) -/

theorem nat_and_F000 {n : Nat} (h : n < 65536) : n &&& 0xF000 = n / 4096 * 4096 := by
  have hs : n &&& 0xF000 = (n >>> 12) <<< 12 := by
    apply Nat.eq_of_testBit_eq
    intro k
    simp only [Nat.testBit_and, Nat.testBit_shiftLeft, Nat.testBit_shiftRight]
    by_cases hk : k < 16
    · interval_cases k <;> simp [Nat.testBit]
    · have : n.testBit k = false :=
        Nat.testBit_lt_two_pow (lt_of_lt_of_le (show n < 2 ^ 16 from h) (Nat.pow_le_pow_right Nat.zero_lt_two (by omega)))
      simp_all [show 12 + (k - 12) = k by omega]
  rw [hs, Nat.shiftRight_eq_div_pow, Nat.shiftLeft_eq]

theorem nat_and_low {n j : Nat} (h : n < 65536) (hj : j ≤ 12) :
    n &&& (0xF000 ||| (2 ^ j - 1)) = n / 4096 * 4096 + n % 2 ^ j := by
  rw [Nat.and_or_distrib_left, nat_and_F000 h, Nat.and_two_pow_sub_one_eq_mod]
  have hlt : n % 2 ^ j < 2 ^ 12 :=
    lt_of_lt_of_le (Nat.mod_lt _ (Nat.two_pow_pos j)) (Nat.pow_le_pow_right Nat.zero_lt_two hj)
  have := Nat.shiftLeft_add_eq_or_of_lt hlt (n / 4096)
  rw [Nat.shiftLeft_eq] at this
  exact this.symm

theorem and_F000_toNat (w : Word) : (w &&& 0xF000).toNat = w.toNat / 4096 * 4096 := by
  simpa using nat_and_F000 w.isLt

theorem and_F00F_toNat (w : Word) : (w &&& 0xF00F).toNat = w.toNat / 4096 * 4096 + w.toNat % 16 := by
  simpa using nat_and_low (j := 4) w.isLt (by omega)

theorem and_F0FF_toNat (w : Word) : (w &&& 0xF0FF).toNat = w.toNat / 4096 * 4096 + w.toNat % 256 := by
  simpa using nat_and_low (j := 8) w.isLt (by omega)

theorem and_FFFF (w : Word) : w &&& 0xFFFF = w := by
  simpa using BitVec.and_allOnes (x := w)

end Sys2Proof
end

