-- ==== Sys2Proof/Laws/State.lean ====
section
/-! SUPPORT. One lemma per field per update, so that no later proof unfolds a record update. -/

namespace Sys2Proof.Machine

variable (s : State)

/-! ### setV -/

@[simp] theorem setV_v (x : Reg) (b : Byte) : (s.setV x b).v = s.v.set x.val b := rfl
@[simp] theorem setV_index (x : Reg) (b : Byte) : (s.setV x b).index = s.index := rfl
@[simp] theorem setV_pc (x : Reg) (b : Byte) : (s.setV x b).pc = s.pc := rfl
@[simp] theorem setV_sp (x : Reg) (b : Byte) : (s.setV x b).sp = s.sp := rfl
@[simp] theorem setV_stack (x : Reg) (b : Byte) : (s.setV x b).stack = s.stack := rfl
@[simp] theorem setV_dt (x : Reg) (b : Byte) : (s.setV x b).dt = s.dt := rfl
@[simp] theorem setV_st (x : Reg) (b : Byte) : (s.setV x b).st = s.st := rfl
@[simp] theorem setV_faultRec (x : Reg) (b : Byte) : (s.setV x b).faultRec = s.faultRec := rfl
@[simp] theorem setV_mem (x : Reg) (b : Byte) : (s.setV x b).mem = s.mem := rfl
@[simp] theorem setV_fb (x : Reg) (b : Byte) : (s.setV x b).fb = s.fb := rfl
@[simp] theorem setV_sink (x : Reg) (b : Byte) : (s.setV x b).sink = s.sink := rfl
@[simp] theorem setV_keyIn (x : Reg) (b : Byte) : (s.setV x b).keyIn = s.keyIn := rfl
@[simp] theorem setV_rndIn (x : Reg) (b : Byte) : (s.setV x b).rndIn = s.rndIn := rfl
@[simp] theorem setV_cycle (x : Reg) (b : Byte) : (s.setV x b).cycle = s.cycle := rfl
@[simp] theorem setV_events (x : Reg) (b : Byte) : (s.setV x b).events = s.events := rfl

/-! ### setPc -/

@[simp] theorem setPc_v (w : Word) : (s.setPc w).v = s.v := rfl
@[simp] theorem setPc_index (w : Word) : (s.setPc w).index = s.index := rfl
@[simp] theorem setPc_pc (w : Word) : (s.setPc w).pc = w := rfl
@[simp] theorem setPc_sp (w : Word) : (s.setPc w).sp = s.sp := rfl
@[simp] theorem setPc_stack (w : Word) : (s.setPc w).stack = s.stack := rfl
@[simp] theorem setPc_dt (w : Word) : (s.setPc w).dt = s.dt := rfl
@[simp] theorem setPc_st (w : Word) : (s.setPc w).st = s.st := rfl
@[simp] theorem setPc_faultRec (w : Word) : (s.setPc w).faultRec = s.faultRec := rfl
@[simp] theorem setPc_mem (w : Word) : (s.setPc w).mem = s.mem := rfl
@[simp] theorem setPc_fb (w : Word) : (s.setPc w).fb = s.fb := rfl
@[simp] theorem setPc_sink (w : Word) : (s.setPc w).sink = s.sink := rfl
@[simp] theorem setPc_keyIn (w : Word) : (s.setPc w).keyIn = s.keyIn := rfl
@[simp] theorem setPc_rndIn (w : Word) : (s.setPc w).rndIn = s.rndIn := rfl
@[simp] theorem setPc_cycle (w : Word) : (s.setPc w).cycle = s.cycle := rfl
@[simp] theorem setPc_events (w : Word) : (s.setPc w).events = s.events := rfl

/-! ### setIndex -/

@[simp] theorem setIndex_v (w : Word) : (s.setIndex w).v = s.v := rfl
@[simp] theorem setIndex_index (w : Word) : (s.setIndex w).index = w := rfl
@[simp] theorem setIndex_pc (w : Word) : (s.setIndex w).pc = s.pc := rfl
@[simp] theorem setIndex_sp (w : Word) : (s.setIndex w).sp = s.sp := rfl
@[simp] theorem setIndex_stack (w : Word) : (s.setIndex w).stack = s.stack := rfl
@[simp] theorem setIndex_dt (w : Word) : (s.setIndex w).dt = s.dt := rfl
@[simp] theorem setIndex_st (w : Word) : (s.setIndex w).st = s.st := rfl
@[simp] theorem setIndex_faultRec (w : Word) : (s.setIndex w).faultRec = s.faultRec := rfl
@[simp] theorem setIndex_mem (w : Word) : (s.setIndex w).mem = s.mem := rfl
@[simp] theorem setIndex_fb (w : Word) : (s.setIndex w).fb = s.fb := rfl
@[simp] theorem setIndex_sink (w : Word) : (s.setIndex w).sink = s.sink := rfl
@[simp] theorem setIndex_keyIn (w : Word) : (s.setIndex w).keyIn = s.keyIn := rfl
@[simp] theorem setIndex_rndIn (w : Word) : (s.setIndex w).rndIn = s.rndIn := rfl
@[simp] theorem setIndex_cycle (w : Word) : (s.setIndex w).cycle = s.cycle := rfl
@[simp] theorem setIndex_events (w : Word) : (s.setIndex w).events = s.events := rfl

/-! ### setDt -/

@[simp] theorem setDt_v (b : Byte) : (s.setDt b).v = s.v := rfl
@[simp] theorem setDt_index (b : Byte) : (s.setDt b).index = s.index := rfl
@[simp] theorem setDt_pc (b : Byte) : (s.setDt b).pc = s.pc := rfl
@[simp] theorem setDt_sp (b : Byte) : (s.setDt b).sp = s.sp := rfl
@[simp] theorem setDt_stack (b : Byte) : (s.setDt b).stack = s.stack := rfl
@[simp] theorem setDt_dt (b : Byte) : (s.setDt b).dt = b := rfl
@[simp] theorem setDt_st (b : Byte) : (s.setDt b).st = s.st := rfl
@[simp] theorem setDt_faultRec (b : Byte) : (s.setDt b).faultRec = s.faultRec := rfl
@[simp] theorem setDt_mem (b : Byte) : (s.setDt b).mem = s.mem := rfl
@[simp] theorem setDt_fb (b : Byte) : (s.setDt b).fb = s.fb := rfl
@[simp] theorem setDt_sink (b : Byte) : (s.setDt b).sink = s.sink := rfl
@[simp] theorem setDt_keyIn (b : Byte) : (s.setDt b).keyIn = s.keyIn := rfl
@[simp] theorem setDt_rndIn (b : Byte) : (s.setDt b).rndIn = s.rndIn := rfl
@[simp] theorem setDt_cycle (b : Byte) : (s.setDt b).cycle = s.cycle := rfl
@[simp] theorem setDt_events (b : Byte) : (s.setDt b).events = s.events := rfl

/-! ### tick -/

@[simp] theorem tick_v : s.tick.v = s.v := rfl
@[simp] theorem tick_index : s.tick.index = s.index := rfl
@[simp] theorem tick_pc : s.tick.pc = s.pc := rfl
@[simp] theorem tick_sp : s.tick.sp = s.sp := rfl
@[simp] theorem tick_stack : s.tick.stack = s.stack := rfl
@[simp] theorem tick_dt : s.tick.dt = decrement s.dt := rfl
@[simp] theorem tick_st : s.tick.st = s.st := rfl
@[simp] theorem tick_faultRec : s.tick.faultRec = s.faultRec := rfl
@[simp] theorem tick_mem : s.tick.mem = s.mem := rfl
@[simp] theorem tick_fb : s.tick.fb = s.fb := rfl
@[simp] theorem tick_sink : s.tick.sink = s.sink := rfl
@[simp] theorem tick_keyIn : s.tick.keyIn = s.keyIn.tail := rfl
@[simp] theorem tick_rndIn : s.tick.rndIn = s.rndIn := rfl
@[simp] theorem tick_cycle : s.tick.cycle = s.cycle + 1 := rfl
@[simp] theorem tick_events : s.tick.events = s.events := rfl

/-! ### push -/

@[simp] theorem push_v (w : Word) : (s.push w).v = s.v := rfl
@[simp] theorem push_index (w : Word) : (s.push w).index = s.index := rfl
@[simp] theorem push_pc (w : Word) : (s.push w).pc = s.pc := rfl
@[simp] theorem push_sp (w : Word) : (s.push w).sp = s.sp + 1 := rfl
@[simp] theorem push_stack (w : Word) : (s.push w).stack = s.stack.set (s.sp + 1).toNat w := rfl
@[simp] theorem push_dt (w : Word) : (s.push w).dt = s.dt := rfl
@[simp] theorem push_st (w : Word) : (s.push w).st = s.st := rfl
@[simp] theorem push_faultRec (w : Word) : (s.push w).faultRec = s.faultRec := rfl
@[simp] theorem push_mem (w : Word) : (s.push w).mem = s.mem := rfl
@[simp] theorem push_fb (w : Word) : (s.push w).fb = s.fb := rfl
@[simp] theorem push_sink (w : Word) : (s.push w).sink = s.sink := rfl
@[simp] theorem push_keyIn (w : Word) : (s.push w).keyIn = s.keyIn := rfl
@[simp] theorem push_rndIn (w : Word) : (s.push w).rndIn = s.rndIn := rfl
@[simp] theorem push_cycle (w : Word) : (s.push w).cycle = s.cycle := rfl
@[simp] theorem push_events (w : Word) : (s.push w).events = s.events := rfl

/-! ### popPc -/

@[simp] theorem popPc_v : s.popPc.v = s.v := rfl
@[simp] theorem popPc_index : s.popPc.index = s.index := rfl
@[simp] theorem popPc_pc : s.popPc.pc = s.slot s.sp := rfl
@[simp] theorem popPc_sp : s.popPc.sp = s.sp - 1 := rfl
@[simp] theorem popPc_stack : s.popPc.stack = s.stack := rfl
@[simp] theorem popPc_dt : s.popPc.dt = s.dt := rfl
@[simp] theorem popPc_st : s.popPc.st = s.st := rfl
@[simp] theorem popPc_faultRec : s.popPc.faultRec = s.faultRec := rfl
@[simp] theorem popPc_mem : s.popPc.mem = s.mem := rfl
@[simp] theorem popPc_fb : s.popPc.fb = s.fb := rfl
@[simp] theorem popPc_sink : s.popPc.sink = s.sink := rfl
@[simp] theorem popPc_keyIn : s.popPc.keyIn = s.keyIn := rfl
@[simp] theorem popPc_rndIn : s.popPc.rndIn = s.rndIn := rfl
@[simp] theorem popPc_cycle : s.popPc.cycle = s.cycle := rfl
@[simp] theorem popPc_events : s.popPc.events = s.events := rfl

/-! ### takeRnd -/

@[simp] theorem takeRnd_v : s.takeRnd.v = s.v := rfl
@[simp] theorem takeRnd_index : s.takeRnd.index = s.index := rfl
@[simp] theorem takeRnd_pc : s.takeRnd.pc = s.pc := rfl
@[simp] theorem takeRnd_sp : s.takeRnd.sp = s.sp := rfl
@[simp] theorem takeRnd_stack : s.takeRnd.stack = s.stack := rfl
@[simp] theorem takeRnd_dt : s.takeRnd.dt = s.dt := rfl
@[simp] theorem takeRnd_st : s.takeRnd.st = s.st := rfl
@[simp] theorem takeRnd_faultRec : s.takeRnd.faultRec = s.faultRec := rfl
@[simp] theorem takeRnd_mem : s.takeRnd.mem = s.mem := rfl
@[simp] theorem takeRnd_fb : s.takeRnd.fb = s.fb := rfl
@[simp] theorem takeRnd_sink : s.takeRnd.sink = s.sink := rfl
@[simp] theorem takeRnd_keyIn : s.takeRnd.keyIn = s.keyIn := rfl
@[simp] theorem takeRnd_rndIn : s.takeRnd.rndIn = s.rndIn.tail := rfl
@[simp] theorem takeRnd_cycle : s.takeRnd.cycle = s.cycle := rfl
@[simp] theorem takeRnd_events : s.takeRnd.events = s.events := rfl

/-! ### emit -/

@[simp] theorem emit_v (e : Event) : (s.emit e).v = s.v := rfl
@[simp] theorem emit_index (e : Event) : (s.emit e).index = s.index := rfl
@[simp] theorem emit_pc (e : Event) : (s.emit e).pc = s.pc := rfl
@[simp] theorem emit_sp (e : Event) : (s.emit e).sp = s.sp := rfl
@[simp] theorem emit_stack (e : Event) : (s.emit e).stack = s.stack := rfl
@[simp] theorem emit_dt (e : Event) : (s.emit e).dt = s.dt := rfl
@[simp] theorem emit_st (e : Event) : (s.emit e).st = s.st := rfl
@[simp] theorem emit_faultRec (e : Event) : (s.emit e).faultRec = s.faultRec := rfl
@[simp] theorem emit_mem (e : Event) : (s.emit e).mem = s.mem := rfl
@[simp] theorem emit_fb (e : Event) : (s.emit e).fb = s.fb := rfl
@[simp] theorem emit_sink (e : Event) : (s.emit e).sink = s.sink := rfl
@[simp] theorem emit_keyIn (e : Event) : (s.emit e).keyIn = s.keyIn := rfl
@[simp] theorem emit_rndIn (e : Event) : (s.emit e).rndIn = s.rndIn := rfl
@[simp] theorem emit_cycle (e : Event) : (s.emit e).cycle = s.cycle := rfl
@[simp] theorem emit_events (e : Event) : (s.emit e).events = e :: s.events := rfl

/-! ### advance -/

@[simp] theorem advance_v : s.advance.v = s.v := rfl
@[simp] theorem advance_index : s.advance.index = s.index := rfl
@[simp] theorem advance_pc : s.advance.pc = s.pc + 2 := rfl
@[simp] theorem advance_sp : s.advance.sp = s.sp := rfl
@[simp] theorem advance_stack : s.advance.stack = s.stack := rfl
@[simp] theorem advance_dt : s.advance.dt = s.dt := rfl
@[simp] theorem advance_st : s.advance.st = s.st := rfl
@[simp] theorem advance_faultRec : s.advance.faultRec = s.faultRec := rfl
@[simp] theorem advance_mem : s.advance.mem = s.mem := rfl
@[simp] theorem advance_fb : s.advance.fb = s.fb := rfl
@[simp] theorem advance_sink : s.advance.sink = s.sink := rfl
@[simp] theorem advance_keyIn : s.advance.keyIn = s.keyIn := rfl
@[simp] theorem advance_rndIn : s.advance.rndIn = s.rndIn := rfl
@[simp] theorem advance_cycle : s.advance.cycle = s.cycle := rfl
@[simp] theorem advance_events : s.advance.events = s.events := rfl

/-! ### raiseAt -/

@[simp] theorem raiseAt_v (p w : Word) (c : Cause) (n : Nat) : (raiseAt p w c n s).v = s.v := rfl
@[simp] theorem raiseAt_index (p w : Word) (c : Cause) (n : Nat) : (raiseAt p w c n s).index = s.index := rfl
@[simp] theorem raiseAt_pc (p w : Word) (c : Cause) (n : Nat) : (raiseAt p w c n s).pc = p := rfl
@[simp] theorem raiseAt_sp (p w : Word) (c : Cause) (n : Nat) : (raiseAt p w c n s).sp = s.sp := rfl
@[simp] theorem raiseAt_stack (p w : Word) (c : Cause) (n : Nat) : (raiseAt p w c n s).stack = s.stack := rfl
@[simp] theorem raiseAt_dt (p w : Word) (c : Cause) (n : Nat) : (raiseAt p w c n s).dt = s.dt := rfl
@[simp] theorem raiseAt_st (p w : Word) (c : Cause) (n : Nat) : (raiseAt p w c n s).st = s.st := rfl
@[simp] theorem raiseAt_faultRec (p w : Word) (c : Cause) (n : Nat) : (raiseAt p w c n s).faultRec = { fault := true, fcause := c.code, fpc := p, fir := w, finfo := BitVec.ofNat 32 n } := rfl
@[simp] theorem raiseAt_mem (p w : Word) (c : Cause) (n : Nat) : (raiseAt p w c n s).mem = s.mem := rfl
@[simp] theorem raiseAt_fb (p w : Word) (c : Cause) (n : Nat) : (raiseAt p w c n s).fb = s.fb := rfl
@[simp] theorem raiseAt_sink (p w : Word) (c : Cause) (n : Nat) : (raiseAt p w c n s).sink = s.sink := rfl
@[simp] theorem raiseAt_keyIn (p w : Word) (c : Cause) (n : Nat) : (raiseAt p w c n s).keyIn = s.keyIn := rfl
@[simp] theorem raiseAt_rndIn (p w : Word) (c : Cause) (n : Nat) : (raiseAt p w c n s).rndIn = s.rndIn := rfl
@[simp] theorem raiseAt_cycle (p w : Word) (c : Cause) (n : Nat) : (raiseAt p w c n s).cycle = s.cycle := rfl
@[simp] theorem raiseAt_events (p w : Word) (c : Cause) (n : Nat) : (raiseAt p w c n s).events = s.events := rfl

/-! ### skipIf -/

@[simp] theorem skipIf_v (c : Bool) : (s.skipIf c).v = s.v := by unfold State.skipIf; split <;> rfl
@[simp] theorem skipIf_index (c : Bool) : (s.skipIf c).index = s.index := by unfold State.skipIf; split <;> rfl
@[simp] theorem skipIf_pc (c : Bool) : (s.skipIf c).pc = if c then s.pc + 2 else s.pc := by unfold State.skipIf; split <;> simp_all
@[simp] theorem skipIf_sp (c : Bool) : (s.skipIf c).sp = s.sp := by unfold State.skipIf; split <;> rfl
@[simp] theorem skipIf_stack (c : Bool) : (s.skipIf c).stack = s.stack := by unfold State.skipIf; split <;> rfl
@[simp] theorem skipIf_dt (c : Bool) : (s.skipIf c).dt = s.dt := by unfold State.skipIf; split <;> rfl
@[simp] theorem skipIf_st (c : Bool) : (s.skipIf c).st = s.st := by unfold State.skipIf; split <;> rfl
@[simp] theorem skipIf_faultRec (c : Bool) : (s.skipIf c).faultRec = s.faultRec := by unfold State.skipIf; split <;> rfl
@[simp] theorem skipIf_mem (c : Bool) : (s.skipIf c).mem = s.mem := by unfold State.skipIf; split <;> rfl
@[simp] theorem skipIf_fb (c : Bool) : (s.skipIf c).fb = s.fb := by unfold State.skipIf; split <;> rfl
@[simp] theorem skipIf_sink (c : Bool) : (s.skipIf c).sink = s.sink := by unfold State.skipIf; split <;> rfl
@[simp] theorem skipIf_keyIn (c : Bool) : (s.skipIf c).keyIn = s.keyIn := by unfold State.skipIf; split <;> rfl
@[simp] theorem skipIf_rndIn (c : Bool) : (s.skipIf c).rndIn = s.rndIn := by unfold State.skipIf; split <;> rfl
@[simp] theorem skipIf_cycle (c : Bool) : (s.skipIf c).cycle = s.cycle := by unfold State.skipIf; split <;> rfl
@[simp] theorem skipIf_events (c : Bool) : (s.skipIf c).events = s.events := by unfold State.skipIf; split <;> rfl

/-! ### show -/

@[simp] theorem show_v (c : Canvas) : (s.show c).v = s.v := by unfold State.show; split <;> rfl
@[simp] theorem show_index (c : Canvas) : (s.show c).index = s.index := by unfold State.show; split <;> rfl
@[simp] theorem show_pc (c : Canvas) : (s.show c).pc = s.pc := by unfold State.show; split <;> rfl
@[simp] theorem show_sp (c : Canvas) : (s.show c).sp = s.sp := by unfold State.show; split <;> rfl
@[simp] theorem show_stack (c : Canvas) : (s.show c).stack = s.stack := by unfold State.show; split <;> rfl
@[simp] theorem show_dt (c : Canvas) : (s.show c).dt = s.dt := by unfold State.show; split <;> rfl
@[simp] theorem show_st (c : Canvas) : (s.show c).st = s.st := by unfold State.show; split <;> rfl
@[simp] theorem show_faultRec (c : Canvas) : (s.show c).faultRec = s.faultRec := by unfold State.show; split <;> rfl
@[simp] theorem show_mem (c : Canvas) : (s.show c).mem = s.mem := by unfold State.show; split <;> rfl
@[simp] theorem show_fb (c : Canvas) : (s.show c).fb = c.fb := by unfold State.show; split <;> rfl
@[simp] theorem show_sink (c : Canvas) : (s.show c).sink = s.sink := by unfold State.show; split <;> rfl
@[simp] theorem show_keyIn (c : Canvas) : (s.show c).keyIn = s.keyIn := by unfold State.show; split <;> rfl
@[simp] theorem show_rndIn (c : Canvas) : (s.show c).rndIn = s.rndIn := by unfold State.show; split <;> rfl
@[simp] theorem show_cycle (c : Canvas) : (s.show c).cycle = s.cycle := by unfold State.show; split <;> rfl
@[simp] theorem show_events (c : Canvas) : (s.show c).events = if c.toggled then .repaint :: s.events else s.events := by unfold State.show; split <;> simp_all [State.emit]

/-! ### Registers and slots under an update -/

/-- Registers and slots are read off `v` and `stack` alone. -/
theorem getV_congr {s t : State} (h : t.v = s.v) (x : Reg) : t.getV x = s.getV x := by rw [State.getV, h, State.getV]

theorem slot_congr {s t : State} (h : t.stack = s.stack) (k : BitVec 4) : t.slot k = s.slot k := by
  simp only [State.slot, h]

@[simp] theorem getV_setPc (w : Word) (y : Reg) : (s.setPc w).getV y = s.getV y := rfl
@[simp] theorem slot_setPc (w : Word) (k : BitVec 4) : (s.setPc w).slot k = s.slot k := rfl
@[simp] theorem getV_setIndex (w : Word) (y : Reg) : (s.setIndex w).getV y = s.getV y := rfl
@[simp] theorem slot_setIndex (w : Word) (k : BitVec 4) : (s.setIndex w).slot k = s.slot k := rfl
@[simp] theorem getV_setDt (b : Byte) (y : Reg) : (s.setDt b).getV y = s.getV y := rfl
@[simp] theorem slot_setDt (b : Byte) (k : BitVec 4) : (s.setDt b).slot k = s.slot k := rfl
@[simp] theorem getV_push (w : Word) (y : Reg) : (s.push w).getV y = s.getV y := rfl
@[simp] theorem getV_popPc (y : Reg) : s.popPc.getV y = s.getV y := rfl
@[simp] theorem slot_popPc (k : BitVec 4) : s.popPc.slot k = s.slot k := rfl
@[simp] theorem getV_takeRnd (y : Reg) : s.takeRnd.getV y = s.getV y := rfl
@[simp] theorem slot_takeRnd (k : BitVec 4) : s.takeRnd.slot k = s.slot k := rfl
@[simp] theorem getV_emit (e : Event) (y : Reg) : (s.emit e).getV y = s.getV y := rfl
@[simp] theorem slot_emit (e : Event) (k : BitVec 4) : (s.emit e).slot k = s.slot k := rfl
@[simp] theorem getV_advance (y : Reg) : s.advance.getV y = s.getV y := rfl
@[simp] theorem slot_advance (k : BitVec 4) : s.advance.slot k = s.slot k := rfl
@[simp] theorem getV_tick (y : Reg) : s.tick.getV y = s.getV y := rfl
@[simp] theorem slot_tick (k : BitVec 4) : s.tick.slot k = s.slot k := rfl
@[simp] theorem getV_raiseAt (p w : Word) (c : Cause) (n : Nat) (y : Reg) : (raiseAt p w c n s).getV y = s.getV y := rfl
@[simp] theorem slot_raiseAt (p w : Word) (c : Cause) (n : Nat) (k : BitVec 4) : (raiseAt p w c n s).slot k = s.slot k := rfl
@[simp] theorem slot_setV (x : Reg) (b : Byte) (k : BitVec 4) : (s.setV x b).slot k = s.slot k := rfl
@[simp] theorem getV_skipIf (c : Bool) (y : Reg) : (s.skipIf c).getV y = s.getV y := getV_congr (by simp) y
@[simp] theorem slot_skipIf (c : Bool) (k : BitVec 4) : (s.skipIf c).slot k = s.slot k := slot_congr (by simp) k
@[simp] theorem getV_show (c : Canvas) (y : Reg) : (s.show c).getV y = s.getV y := getV_congr (by simp) y
@[simp] theorem slot_show (c : Canvas) (k : BitVec 4) : (s.show c).slot k = s.slot k := slot_congr (by simp) k

@[simp] theorem getV_setV (x y : Reg) (b : Byte) : (s.setV x b).getV y = if x = y then b else s.getV y := by
  simp only [State.getV, setV_v, Vector.getElem_set, Fin.ext_iff]

@[simp] theorem slot_push (w : Word) (k : BitVec 4) : (s.push w).slot k = if s.sp + 1 = k then w else s.slot k := by
  simp only [State.slot, push_stack, Vector.getElem_set, BitVec.toNat_inj]

end Sys2Proof.Machine
end

