-- ==== Sys2Proof/Laws/Exec.lean ====
section
/-! SUPPORT. What each shared operation and each meaning can answer, said once. -/

namespace Sys2Proof.Machine

/-! ### The cycle's parts -/

theorem decrement_toNat (d : Byte) : (decrement d).toNat = d.toNat - 1 := by
  revert d; decide

theorem endCycle_of_faulted {t : State} (h : t.faultRec.fault = true) : t.endCycle = t := by
  simp [State.endCycle, h]

theorem endCycle_of_ok {t : State} (h : t.faultRec.fault = false) :
    t.endCycle = t.tick := by
  simp [State.endCycle, h]

/-! ### The display -/

/-- A pixel of the grid after a write: the bit written at its place, every other as before. -/
theorem pixel_setPixel (d : Display) {x y : Nat} (hx : x < 64) (hy : y < 32) (b : Bool) (px py : Nat) :
    (d.setPixel x y b).pixel px py = if px = x ∧ py = y then b else d.pixel px py := by
  unfold Display.setPixel Display.pixel
  rw [dif_pos hy]
  by_cases hpy : py < 32
  · simp only [hpy, dif_pos, Vector.getElem_set]
    by_cases hyy : y = py
    · subst hyy
      by_cases hxx : px = x
      · subst hxx; cases b <;> simp [hx]
      · cases b <;> simp [hxx, Ne.symm hxx]
        intro h; exact BitVec.lt_of_getLsbD h
    · simp [hyy, Ne.symm hyy]
  · simp [hpy, show ¬ py = y by omega]

/-! ### The meanings -/

/-- Drawing answers one of three things: `DATA_RANGE`, a whole draw, or a draw the sink stopped. -/
theorem execDrw_cases (x y : Reg) (n : Nat) (s : State) :
    (s.spriteOutOfRange n = true ∧
      execDrw x y n s = .next (raise (.drw x y n) .dataRange (max s.index.toNat 0x1000) s)) ∨
    (∃ c, s.spriteOutOfRange n = false ∧ plot s.sink (s.drawPixels x y n) ⟨s.fb, false, false⟩ = .done c ∧
      execDrw x y n s = .next ((s.show c).setV flagReg (collisionFlag c.collided))) ∨
    (∃ c px py, s.spriteOutOfRange n = false ∧
      plot s.sink (s.drawPixels x y n) ⟨s.fb, false, false⟩ = .offGrid c px py ∧
      execDrw x y n s = .next (raise (.drw x y n) .displayRange (pixelInfo px py) (s.show c))) := by
  unfold execDrw
  by_cases h : s.spriteOutOfRange n = true
  · exact .inl ⟨h, by simp [h]⟩
  · simp only [h]
    cases hp : plot s.sink (s.drawPixels x y n) ⟨s.fb, false, false⟩ with
    | done c => exact .inr (.inl ⟨c, by simp_all, rfl, by simp⟩)
    | offGrid c px py => exact .inr (.inr ⟨c, px, py, by simp_all, rfl, by simp⟩)

/-- Every meaning answers a next state. -/
theorem exec_next (i : Instr) (s : State) : ∃ t, exec i s = .next t := by
  cases i with
  | ret => simp only [exec, execRet]; split <;> exact ⟨_, rfl⟩
  | jp nnn => exact ⟨_, rfl⟩
  | call nnn => simp only [exec, execCall]; split <;> exact ⟨_, rfl⟩
  | seVxNn x nn => exact ⟨_, rfl⟩
  | sneVxNn x nn => exact ⟨_, rfl⟩
  | ldVxNn x nn => exact ⟨_, rfl⟩
  | addVxNn x nn => exact ⟨_, rfl⟩
  | ldVxVy x y => exact ⟨_, rfl⟩
  | se9VxVy x y => exact ⟨_, rfl⟩
  | ldINnn nnn => exact ⟨_, rfl⟩
  | rndVxNn x nn => exact ⟨_, rfl⟩
  | drw x y n =>
    rcases execDrw_cases x y n s with ⟨-, h⟩ | ⟨_, -, -, h⟩ | ⟨_, _, _, -, -, h⟩ <;> exact ⟨_, h⟩
  | skp x => simp only [exec, execSkp]; split <;> exact ⟨_, rfl⟩
  | sknp x => simp only [exec, execSknp]; split <;> exact ⟨_, rfl⟩
  | ldVxDt x => exact ⟨_, rfl⟩
  | ldDtVx x => exact ⟨_, rfl⟩
  | addIVx x => simp only [exec, execAddIVx]; split <;> exact ⟨_, rfl⟩

/-- No instruction writes memory, `ST`, the sink, the keypad inputs or the cycle number (R18, R43). -/
theorem exec_keeps {i : Instr} {s t : State} (h : exec i s = .next t) :
    t.mem = s.mem ∧ t.st = s.st ∧ t.sink = s.sink ∧ t.keyIn = s.keyIn ∧ t.cycle = s.cycle := by
  cases i with
  | ret => simp only [exec, execRet] at h; split at h <;> cases h <;> simp [raise]
  | jp nnn => cases h; simp
  | call nnn => simp only [exec, execCall] at h; split at h <;> cases h <;> simp [raise]
  | seVxNn x nn => cases h; simp
  | sneVxNn x nn => cases h; simp
  | ldVxNn x nn => cases h; simp
  | addVxNn x nn => cases h; simp
  | ldVxVy x y => cases h; simp
  | se9VxVy x y => cases h; simp
  | ldINnn nnn => cases h; simp
  | rndVxNn x nn => cases h; simp
  | drw x y n =>
    rcases execDrw_cases x y n s with ⟨-, h'⟩ | ⟨_, -, -, h'⟩ | ⟨_, _, _, -, -, h'⟩ <;>
      cases h'.symm.trans h <;> simp [raise]
  | skp x => simp only [exec, execSkp] at h; split at h <;> cases h <;> simp [raise]
  | sknp x => simp only [exec, execSknp] at h; split at h <;> cases h <;> simp [raise]
  | ldVxDt x => cases h; simp
  | ldDtVx x => cases h; simp
  | addIVx x => simp only [exec, execAddIVx] at h; split at h <;> cases h <;> simp [raise]

/-- What a step can do: nothing on a faulted core, the fetch fault, the unrecognised arm, or an instruction. -/
theorem step_cases {s t : State} (h : step s = .next t) :
    (s.faultRec.fault = true ∧ t = s) ∨
    (s.faultRec.fault = false ∧ 0x0FFE < s.pc.toNat ∧ t = fetchFault s) ∨
    (s.faultRec.fault = false ∧ s.pc.toNat ≤ 0x0FFE ∧ decodeWord s.fetchWord = none ∧
      t = (execUnrecognised s.fetchWord s.advance).endCycle) ∨
    (∃ i u, s.faultRec.fault = false ∧ s.pc.toNat ≤ 0x0FFE ∧ decodeWord s.fetchWord = some i ∧
      exec i s.advance = .next u ∧ t = u.endCycle) := by
  unfold step at h
  split at h
  · exact .inl ⟨‹_›, by simpa using h.symm⟩
  · rename_i hf
    have hf : s.faultRec.fault = false := by simpa using hf
    split at h
    · rename_i hp
      exact .inr (.inl ⟨hf, by simpa [State.fetchOutOfRange] using hp, by simpa using h.symm⟩)
    · rename_i hp
      have hp : s.pc.toNat ≤ 0x0FFE := by simpa [State.fetchOutOfRange] using hp
      split at h
      · rename_i hd
        exact .inr (.inr (.inl ⟨hf, hp, hd, by simpa [finish] using h.symm⟩))
      · rename_i i hd
        obtain ⟨u, hu⟩ := exec_next i s.advance
        rw [hu] at h
        exact .inr (.inr (.inr ⟨i, u, hf, hp, hd, hu, by simpa [finish] using h.symm⟩))

/-- A step that runs an instruction to its end. -/
theorem step_of_exec {s t : State} {i : Instr} (hf : s.faultRec.fault = false) (hp : s.pc.toNat ≤ 0x0FFE)
    (hd : decodeWord s.fetchWord = some i) (he : exec i s.advance = .next t) (ht : t.faultRec.fault = false) :
    step s = .next t.tick := by
  simp [step, hf, State.fetchOutOfRange, show ¬ 0x0FFE < s.pc.toNat by omega, hd, he, finish, endCycle_of_ok ht]

/-- A step that runs an instruction, as an equation. -/
theorem step_of_decode {s : State} {i : Instr} (hf : s.faultRec.fault = false) (hp : s.pc.toNat ≤ 0x0FFE)
    (hd : decodeWord s.fetchWord = some i) : step s = finish (exec i s.advance) := by
  simp [step, hf, State.fetchOutOfRange, show ¬ 0x0FFE < s.pc.toNat by omega, hd]

end Sys2Proof.Machine
end

