-- ==== Sys2Proof/Laws/Draw.lean ====
section
/-! SUPPORT. Which pixels a sprite has, and what toggling a list of pixels does on each sink. -/

namespace Sys2Proof.Machine

/-! ### The pixels of a sprite (R144 to R146) -/

theorem mem_rowPixels {b : Byte} {x y px py : Nat} :
    (px, py) ∈ rowPixels b x y ↔ ∃ c, c < 8 ∧ b.getLsbD (7 - c) = true ∧ px = x + c ∧ py = y := by
  simp only [rowPixels, List.mem_filterMap, List.mem_range]
  constructor
  · rintro ⟨c, hc, h⟩
    split at h
    · rename_i hb
      simp only [Option.some.injEq, Prod.mk.injEq] at h
      exact ⟨c, hc, hb, h.1.symm, h.2.symm⟩
    · simp at h
  · rintro ⟨c, hc, hb, rfl, rfl⟩
    exact ⟨c, hc, by simp [hb]⟩

theorem mem_spritePixels {bs : List Byte} {x px : Nat} : ∀ {y py : Nat},
    (px, py) ∈ spritePixels bs x y ↔
      ∃ r c, r < bs.length ∧ c < 8 ∧ (bs.getD r 0).getLsbD (7 - c) = true ∧ px = x + c ∧ py = y + r := by
  induction bs with
  | nil => simp [spritePixels]
  | cons b bs ih =>
    intro y py
    simp only [spritePixels, List.mem_append, mem_rowPixels, ih, List.length_cons]
    constructor
    · rintro (⟨c, hc, hb, rfl, rfl⟩ | ⟨r, c, hr, hc, hb, rfl, rfl⟩)
      · exact ⟨0, c, by omega, hc, by simpa using hb, rfl, rfl⟩
      · exact ⟨r + 1, c, by omega, hc, by simpa using hb, rfl, by omega⟩
    · rintro ⟨r, c, hr, hc, hb, rfl, rfl⟩
      cases r with
      | zero => exact .inl ⟨c, hc, by simpa using hb, rfl, rfl⟩
      | succ r => exact .inr ⟨r, c, by omega, hc, by simpa using hb, rfl, by omega⟩

/-- The pixels `DXYN` toggles are those of the set bits. -/
theorem mem_drawPixels {s : State} {x y : Reg} {n px py : Nat} :
    (px, py) ∈ s.drawPixels x y n ↔ s.spriteAt x y n px py := by
  simp only [State.drawPixels, mem_spritePixels, State.spriteAt, State.bitSet, State.spriteRows, List.length_map,
    List.length_range]
  constructor
  · rintro ⟨r, c, hr, hc, hb, hx, hy⟩
    exact ⟨r, c, hr, ⟨hc, by simpa [hr] using hb⟩, hx, hy⟩
  · rintro ⟨r, c, hr, ⟨hc, hb⟩, hx, hy⟩
    exact ⟨r, c, hr, hc, by simpa [hr] using hb, hx, hy⟩

/-- Row by row, and in a row by column: the order of the toggles (R145). -/
def pixelBefore (p q : Nat × Nat) : Prop := p.2 < q.2 ∨ (p.2 = q.2 ∧ p.1 < q.1)

theorem rowPixels_sorted (b : Byte) (x y : Nat) : (rowPixels b x y).Pairwise pixelBefore := by
  refine List.Pairwise.filterMap _ ?_ List.pairwise_lt_range
  intro c d hcd p hp q hq
  split at hp <;> split at hq <;> simp_all [pixelBefore]
  subst hp hq
  exact .inr ⟨rfl, by simpa using hcd⟩

theorem spritePixels_sorted (bs : List Byte) (x : Nat) : ∀ y, (spritePixels bs x y).Pairwise pixelBefore := by
  induction bs with
  | nil => simp [spritePixels]
  | cons b bs ih =>
    intro y
    refine List.pairwise_append.2 ⟨rowPixels_sorted b x y, ih (y + 1), ?_⟩
    rintro ⟨px, py⟩ hp ⟨qx, qy⟩ hq
    obtain ⟨_, _, _, _, rfl⟩ := mem_rowPixels.1 hp
    obtain ⟨_, _, _, _, _, _, rfl⟩ := mem_spritePixels.1 hq
    exact .inl (by simp only; omega)

theorem drawPixels_sorted (s : State) (x y : Reg) (n : Nat) : (s.drawPixels x y n).Pairwise pixelBefore :=
  spritePixels_sorted _ _ _

/-- No pixel is toggled twice in one instruction (R145). -/
theorem drawPixels_nodup (s : State) (x y : Reg) (n : Nat) : (s.drawPixels x y n).Nodup :=
  (drawPixels_sorted s x y n).imp fun {p q} h hpq => by subst hpq; unfold pixelBefore at h; omega

/-! ### Toggling on each sink (R224, R225) -/

/-- The pixel of the grid a sink uses for a coordinate pair: none where it refuses the pair or ignores it. -/
def Sink.cell (k : Sink) (p : Nat × Nat) : Option (Nat × Nat) :=
  match k with
  | .strict => if onGrid p.1 p.2 then some p else none
  | .ignore => if onGrid p.1 p.2 then some p else none
  | .wrap => some (p.1 % 64, p.2 % 32)

theorem onGrid_iff {x y : Nat} : onGrid x y = true ↔ GridPixel x y := by simp [onGrid, GridPixel]

theorem Sink.cell_grid {k : Sink} {p q : Nat × Nat} (h : k.cell p = some q) : q.1 < 64 ∧ q.2 < 32 := by
  cases k <;> simp only [Sink.cell] at h
  · split at h <;> simp_all [onGrid]; subst h; omega
  · split at h <;> simp_all [onGrid]; subst h; omega
  · simp at h; subst h; exact ⟨Nat.mod_lt _ (by omega), Nat.mod_lt _ (by omega)⟩

/-- A sink that has a pixel for the pair reads and writes that pixel. -/
theorem Sink.get_set_of_cell {k : Sink} {x y : Nat} {q : Nat × Nat} (h : k.cell (x, y) = some q) (d : Display)
    (b : Bool) : k.getPixel d x y = some (d.pixel q.1 q.2) ∧ k.setPixel d x y b = some (d.setPixel q.1 q.2 b) := by
  cases k <;> simp only [Sink.cell] at h <;> simp only [Sink.getPixel, Sink.setPixel]
  · split at h <;> simp_all; subst h; simp
  · split at h <;> simp_all; subst h; simp
  · simp at h; subst h; simp

/-- A sink with no pixel for the pair refuses it when strict, and otherwise reads off and writes nothing. -/
theorem Sink.get_set_of_no_cell {k : Sink} {x y : Nat} (h : k.cell (x, y) = none) (hk : k ≠ .strict) (d : Display)
    (b : Bool) : k.getPixel d x y = some false ∧ k.setPixel d x y b = some d := by
  cases k <;> simp_all [Sink.cell, Sink.getPixel, Sink.setPixel]

/-- What toggling a list of pixels does when the sink refuses none: each pixel named is complemented, the flag is set
when one of them was on. -/
theorem plot_done (k : Sink) (ps : List (Nat × Nat)) : ∀ (c : Canvas),
    (k = .strict → ∀ p ∈ ps, onGrid p.1 p.2 = true) → (ps.filterMap k.cell).Nodup →
    ∃ c', plot k ps c = .done c' ∧
      (∀ px py, px < 64 → py < 32 →
        c'.fb.pixel px py = if (px, py) ∈ ps.filterMap k.cell then !c.fb.pixel px py else c.fb.pixel px py) ∧
      (c'.collided = true ↔ c.collided = true ∨ ∃ q ∈ ps.filterMap k.cell, c.fb.pixel q.1 q.2 = true) ∧
      c'.toggled = (c.toggled || !ps.isEmpty) := by
  induction ps with
  | nil => intro c _ _; exact ⟨c, rfl, by simp, by simp, by simp⟩
  | cons p ps ih =>
    obtain ⟨x, y⟩ := p
    intro c hs hn
    have hs' : k = .strict → ∀ p ∈ ps, onGrid p.1 p.2 = true := fun h p hp => hs h p (List.mem_cons_of_mem _ hp)
    cases hc : k.cell (x, y) with
    | none =>
      have hk : k ≠ .strict := by
        intro h
        have := hs h (x, y) (by simp)
        subst h
        simp_all [Sink.cell]
      simp only [List.filterMap_cons, hc] at hn ⊢
      obtain ⟨hg, hw⟩ := Sink.get_set_of_no_cell hc hk c.fb true
      obtain ⟨c', h1, h2, h3, h4⟩ := ih ⟨c.fb, collide c.collided false, true⟩ hs' hn
      exact ⟨c', by simp [plot, hg, hw, h1], h2, by simpa [collide] using h3, by simp [h4]⟩
    | some q =>
      simp only [List.filterMap_cons, hc, List.nodup_cons] at hn ⊢
      obtain ⟨hq, hn⟩ := hn
      obtain ⟨hg, hw⟩ := Sink.get_set_of_cell hc c.fb (!c.fb.pixel q.1 q.2)
      obtain ⟨hx, hy⟩ := Sink.cell_grid hc
      obtain ⟨c', h1, h2, h3, h4⟩ := ih ⟨c.fb.setPixel q.1 q.2 (!c.fb.pixel q.1 q.2),
        collide c.collided (c.fb.pixel q.1 q.2), true⟩ hs' hn
      refine ⟨c', by simp [plot, hg, hw, h1], fun px py hpx hpy => ?_, ?_, by simp [h4]⟩
      · rw [h2 px py hpx hpy]
        simp only [pixel_setPixel _ hx hy, List.mem_cons]
        by_cases hpq : (px, py) = q
        · subst hpq; simp [hq]
        · have : ¬ (px = q.1 ∧ py = q.2) := fun h => hpq (by ext <;> simp [h])
          simp only [if_neg this, or_iff_right hpq]
      · rw [h3]
        simp only [collide, Bool.or_eq_true, List.mem_cons, exists_eq_or_imp, or_assoc]
        refine or_congr Iff.rfl (or_congr Iff.rfl ?_)
        refine exists_congr fun r => and_congr_right fun hr => ?_
        rw [pixel_setPixel _ hx hy, if_neg]
        rintro ⟨h1, h2⟩
        exact hq (by rwa [show r = q from Prod.ext h1 h2] at hr)

/-- The strict sink refuses the first off-grid pixel of the list, after the toggles before it (R148). -/
theorem plot_offGrid {x y : Nat} (hxy : onGrid x y = false) (qs : List (Nat × Nat)) (ps : List (Nat × Nat)) :
    ∀ {c c' : Canvas}, plot .strict ps c = .done c' → plot .strict (ps ++ (x, y) :: qs) c = .offGrid c' x y := by
  induction ps with
  | nil => intro c c' h; simp_all [plot, Sink.getPixel]
  | cons p ps ih =>
    obtain ⟨u, v⟩ := p
    intro c c' h
    simp only [plot, List.cons_append] at h ⊢
    cases hg : Sink.getPixel .strict c.fb u v with
    | none => simp [hg] at h
    | some on =>
      simp only [hg] at h ⊢
      cases hw : Sink.setPixel .strict c.fb u v (!on) with
      | none => simp [hw] at h
      | some fb => simp only [hw] at h ⊢; exact ih h

/-- When a draw is stopped, the sink is strict and the pixel is an off-grid one of the list. -/
theorem plot_offGrid_inv {k : Sink} {ps : List (Nat × Nat)} : ∀ {c c' : Canvas} {x y : Nat},
    plot k ps c = .offGrid c' x y → k = .strict ∧ (x, y) ∈ ps ∧ onGrid x y = false := by
  induction ps with
  | nil => intro c c' x y h; simp [plot] at h
  | cons p ps ih =>
    obtain ⟨u, v⟩ := p
    intro c c' x y h
    cases hc : k.cell (u, v) with
    | some q =>
      obtain ⟨hg, hw⟩ := Sink.get_set_of_cell hc c.fb (!c.fb.pixel q.1 q.2)
      simp only [plot, hg, hw] at h
      obtain ⟨h1, h2, h3⟩ := ih h
      exact ⟨h1, List.mem_cons_of_mem _ h2, h3⟩
    | none =>
      by_cases hk : k = .strict
      · subst hk
        have hoff : onGrid u v = false := by simpa [Sink.cell] using hc
        simp only [plot, Sink.getPixel, hoff] at h
        simp at h
        obtain ⟨-, rfl, rfl⟩ := h
        exact ⟨rfl, by simp, hoff⟩
      · obtain ⟨hg, hw⟩ := Sink.get_set_of_no_cell hc hk c.fb true
        simp only [plot, hg, Bool.not_false, hw] at h
        obtain ⟨h1, h2, h3⟩ := ih h
        exact ⟨h1, List.mem_cons_of_mem _ h2, h3⟩

/-- A strict sink that has refused no pixel of a list had them all on the grid. -/
theorem plot_done_inv {ps : List (Nat × Nat)} : ∀ {c c' : Canvas},
    plot .strict ps c = .done c' → ∀ p ∈ ps, onGrid p.1 p.2 = true := by
  induction ps with
  | nil => simp
  | cons p ps ih =>
    obtain ⟨u, v⟩ := p
    intro c c' h
    cases hg : onGrid u v
    · simp [plot, Sink.getPixel, hg] at h
    · simp only [plot, Sink.getPixel, Sink.setPixel, hg, if_true] at h
      intro p hp
      rcases List.mem_cons.1 hp with rfl | hp
      · exact hg
      · exact ih h p hp

/-- The range check, as a statement about the rows (R143). -/
theorem spriteOutOfRange_iff {s : State} {n : Nat} : s.spriteOutOfRange n = false ↔ s.spriteInMemory n := by
  simp only [State.spriteOutOfRange, State.spriteInMemory, Bool.and_eq_false_iff, decide_eq_false_iff_not]
  omega

end Sys2Proof.Machine
end

