-- ==== Sys2Proof/Laws/Memory.lean ====
section
/-! SUPPORT. Reading after a write, and that every memory operation keeps the canonical form. -/

namespace Sys2Proof.Machine

variable {m : Memory}

theorem Memory.read_nil (a : Nat) : Memory.read [] a = Memory.unlisted a := rfl

/-- An address above every listed one reads as unlisted. -/
theorem Memory.read_of_lt {a : Nat} (h : ∀ c ∈ m, a < c.1) : Memory.read m a = Memory.unlisted a := by
  induction m with
  | nil => rfl
  | cons c m ih =>
    have hc := h c (by simp)
    simp only [Memory.read, show a ≠ c.1 by omega, if_false]
    exact ih fun d hd => h d (by simp [hd])

theorem Memory.wf_tail {c : Host.Cell} (h : Memory.wf (c :: m)) : Memory.wf m :=
  ⟨(List.pairwise_cons.1 h.1).2, fun d hd => h.2 d (List.mem_cons_of_mem _ hd)⟩

theorem Memory.wf_head_lt {c : Host.Cell} (h : Memory.wf (c :: m)) : ∀ d ∈ m, c.1 < d.1 :=
  (List.pairwise_cons.1 h.1).1

/-- Reading after inserting: the byte inserted at its address, every other address as before. -/
theorem Memory.read_insert (h : Memory.wf m) (a : Nat) (b : Byte) (k : Nat) :
    (m.insert a b).read k = if k = a then b else m.read k := by
  induction m with
  | nil =>
    simp only [Memory.insert]
    split <;> simp_all [Memory.read]
  | cons c m ih =>
    obtain ⟨j, d⟩ := c
    have hlt := Memory.wf_head_lt h
    simp only [Memory.insert]
    split
    · rename_i haj
      have hu : Memory.read ((j, d) :: m) a = Memory.unlisted a := Memory.read_of_lt fun c hc => by
        rcases List.mem_cons.1 hc with rfl | hc
        · exact haj
        · exact Nat.lt_trans haj (hlt c hc)
      split
      · by_cases hk : k = a <;> simp_all
      · simp only [Memory.read]
    · split
      · rename_i haj
        subst haj
        split
        · have hu : Memory.read m a = Memory.unlisted a := Memory.read_of_lt hlt
          by_cases hk : k = a <;> simp_all [Memory.read]
        · by_cases hk : k = a <;> simp_all [Memory.read]
      · simp only [Memory.read, ih (Memory.wf_tail h)]
        by_cases hkj : k = j
        · have : ¬ k = a := by omega
          simp [hkj, show ¬ j = a by omega]
        · simp [hkj]

theorem Memory.mem_insert {a : Nat} {b : Byte} {c : Host.Cell} (h : c ∈ m.insert a b) :
    (c = (a, b) ∧ b ≠ Memory.unlisted a) ∨ c ∈ m := by
  induction m with
  | nil => simp only [Memory.insert] at h; split at h <;> simp_all
  | cons d m ih =>
    simp only [Memory.insert] at h
    split at h
    · split at h <;> simp_all
    · split at h
      · split at h <;> simp_all
        rcases h with h | h <;> simp [h]
      · rcases List.mem_cons.1 h with rfl | h
        · simp
        · rcases ih h with h | h <;> simp [h]

/-- Inserting an address of the space keeps the canonical form. -/
theorem Memory.insert_wf (h : Memory.wf m) {a : Nat} (ha : a < Config.memSize) (b : Byte) :
    Memory.wf (m.insert a b) := by
  refine ⟨?_, fun c hc => ?_⟩
  · induction m with
    | nil => simp only [Memory.insert]; split <;> simp
    | cons d m ih =>
      have hlt := Memory.wf_head_lt h
      have hp := (List.pairwise_cons.1 h.1).2
      simp only [Memory.insert]
      split
      · rename_i had
        split
        · exact h.1
        · refine List.pairwise_cons.2 ⟨fun c hc => ?_, h.1⟩
          rcases List.mem_cons.1 hc with rfl | hc
          · exact had
          · exact Nat.lt_trans had (hlt c hc)
      · split
        · rename_i had
          split
          · exact hp
          · exact List.pairwise_cons.2 ⟨fun c hc => by simpa [had] using hlt c hc, hp⟩
        · refine List.pairwise_cons.2 ⟨fun c hc => ?_, ih (Memory.wf_tail h)⟩
          rcases Memory.mem_insert hc with ⟨rfl, -⟩ | hc
          · simp only; omega
          · exact hlt c hc
  · rcases Memory.mem_insert hc with ⟨rfl, hb⟩ | hc
    · exact ⟨ha, hb⟩
    · exact h.2 c hc

theorem Memory.write_wf (h : Memory.wf m) (a : Nat) (b : Byte) : Memory.wf (m.write a b) := by
  unfold Memory.write
  split
  · exact Memory.insert_wf h ‹_› b
  · exact h

theorem Memory.read_write (h : Memory.wf m) {a : Nat} (ha : a < Config.memSize) (b : Byte) (k : Nat) :
    (m.write a b).read k = if k = a then b else m.read k := by
  simp only [Memory.write, ha, if_true, Memory.read_insert h]

theorem Memory.load_wf (bs : List Byte) : ∀ {m : Memory}, Memory.wf m → ∀ a, Memory.wf (m.load a bs) := by
  induction bs with
  | nil => exact fun h _ => h
  | cons b bs ih => exact fun h a => ih (Memory.write_wf h a b) (a + 1)

/-- Reading after a load that fits: the loaded bytes at their addresses, every other address as before. -/
theorem Memory.read_load (bs : List Byte) : ∀ {m : Memory}, Memory.wf m → ∀ {a : Nat},
    a + bs.length ≤ Config.memSize → ∀ k,
      (m.load a bs).read k = if a ≤ k ∧ k < a + bs.length then bs.getD (k - a) 0 else m.read k := by
  induction bs with
  | nil =>
    intro m h a ha k
    simp only [Memory.load, List.length_nil, Nat.add_zero, show ¬(a ≤ k ∧ k < a) by omega, if_false]
  | cons b bs ih =>
    intro m h a ha k
    simp only [List.length_cons] at ha ⊢
    have hlt : a < Config.memSize := by omega
    have hfit : a + 1 + bs.length ≤ Config.memSize := by omega
    simp only [Memory.load, ih (Memory.write_wf h a b) hfit, Memory.read_write h hlt]
    by_cases hk : k = a
    · subst hk; simp
    · by_cases hin : a + 1 ≤ k ∧ k < a + 1 + bs.length
      · obtain ⟨j, rfl⟩ : ∃ j, k = a + 1 + j := ⟨k - (a + 1), by omega⟩
        simp only [hin, show (a ≤ a + 1 + j ∧ a + 1 + j < a + (bs.length + 1)) by omega, and_self, if_true,
          show a + 1 + j - (a + 1) = j by omega, show a + 1 + j - a = j + 1 by omega, List.getD_cons_succ]
      · simp only [hin, hk, show ¬(a ≤ k ∧ k < a + (bs.length + 1)) by omega, if_false]

theorem Memory.nil_wf : Memory.wf [] := by decide

theorem reset_mem_wf : State.reset.mem.wf := by decide

theorem launch_mem_wf (font program : List Byte) : (launch font program).mem.wf :=
  Memory.load_wf _ (Memory.load_wf _ Memory.nil_wf _) _

end Sys2Proof.Machine
end

