-- ==== Sys2Proof/Laws/PerInstr.lean ====
section
/-! SUPPORT. Facts about each instruction as syntax, one lemma per constructor. -/

namespace Sys2Proof.Laws

/-! ### EncodesInRow: the encoder follows the opcode table (R63) -/

/-- The word of the instruction matches its row of the opcode table. -/
def EncodesInRow.Statement (i : Instr) : Prop := encode i &&& i.row.mask = i.row.pattern ∧ i.row ∈ opcodeTable

theorem EncodesInRow.ret : EncodesInRow.Statement .ret :=
  ⟨by decide, by decide⟩

theorem EncodesInRow.jp (nnn : Addr) : EncodesInRow.Statement (.jp nnn) := by
  refine ⟨BitVec.eq_of_toNat_eq ?_, by simp [Instr.row, opcodeTable]⟩
  simp only [encode, Instr.row]
  rw [and_F000_toNat, wordNNN_toNat]
  simp; omega

theorem EncodesInRow.call (nnn : Addr) : EncodesInRow.Statement (.call nnn) := by
  refine ⟨BitVec.eq_of_toNat_eq ?_, by simp [Instr.row, opcodeTable]⟩
  simp only [encode, Instr.row]
  rw [and_F000_toNat, wordNNN_toNat]
  simp; omega

theorem EncodesInRow.seVxNn (x : Reg) (nn : Byte) : EncodesInRow.Statement (.seVxNn x nn) := by
  refine ⟨BitVec.eq_of_toNat_eq ?_, by simp [Instr.row, opcodeTable]⟩
  simp only [encode, Instr.row]
  rw [and_F000_toNat, wordXNN_toNat]
  simp; omega

theorem EncodesInRow.sneVxNn (x : Reg) (nn : Byte) : EncodesInRow.Statement (.sneVxNn x nn) := by
  refine ⟨BitVec.eq_of_toNat_eq ?_, by simp [Instr.row, opcodeTable]⟩
  simp only [encode, Instr.row]
  rw [and_F000_toNat, wordXNN_toNat]
  simp; omega

theorem EncodesInRow.ldVxNn (x : Reg) (nn : Byte) : EncodesInRow.Statement (.ldVxNn x nn) := by
  refine ⟨BitVec.eq_of_toNat_eq ?_, by simp [Instr.row, opcodeTable]⟩
  simp only [encode, Instr.row]
  rw [and_F000_toNat, wordXNN_toNat]
  simp; omega

theorem EncodesInRow.addVxNn (x : Reg) (nn : Byte) : EncodesInRow.Statement (.addVxNn x nn) := by
  refine ⟨BitVec.eq_of_toNat_eq ?_, by simp [Instr.row, opcodeTable]⟩
  simp only [encode, Instr.row]
  rw [and_F000_toNat, wordXNN_toNat]
  simp; omega

theorem EncodesInRow.ldVxVy (x y : Reg) : EncodesInRow.Statement (.ldVxVy x y) := by
  refine ⟨BitVec.eq_of_toNat_eq ?_, by simp [Instr.row, opcodeTable]⟩
  simp only [encode, Instr.row]
  rw [and_F00F_toNat, wordXYN_toNat]
  simp; omega

theorem EncodesInRow.se9VxVy (x y : Reg) : EncodesInRow.Statement (.se9VxVy x y) := by
  refine ⟨BitVec.eq_of_toNat_eq ?_, by simp [Instr.row, opcodeTable]⟩
  simp only [encode, Instr.row]
  rw [and_F00F_toNat, wordXYN_toNat]
  simp; omega

theorem EncodesInRow.ldINnn (nnn : Addr) : EncodesInRow.Statement (.ldINnn nnn) := by
  refine ⟨BitVec.eq_of_toNat_eq ?_, by simp [Instr.row, opcodeTable]⟩
  simp only [encode, Instr.row]
  rw [and_F000_toNat, wordNNN_toNat]
  simp; omega

theorem EncodesInRow.rndVxNn (x : Reg) (nn : Byte) : EncodesInRow.Statement (.rndVxNn x nn) := by
  refine ⟨BitVec.eq_of_toNat_eq ?_, by simp [Instr.row, opcodeTable]⟩
  simp only [encode, Instr.row]
  rw [and_F000_toNat, wordXNN_toNat]
  simp; omega

theorem EncodesInRow.drw (x y : Reg) (n : Nat) : EncodesInRow.Statement (.drw x y n) := by
  refine ⟨BitVec.eq_of_toNat_eq ?_, by simp [Instr.row, opcodeTable]⟩
  simp only [encode, Instr.row]
  rw [and_F000_toNat, wordXYN_toNat]
  simp; omega

theorem EncodesInRow.skp (x : Reg) : EncodesInRow.Statement (.skp x) := by
  refine ⟨BitVec.eq_of_toNat_eq ?_, by simp [Instr.row, opcodeTable]⟩
  simp only [encode, Instr.row]
  rw [and_F0FF_toNat, wordXNN_toNat]
  simp; omega

theorem EncodesInRow.sknp (x : Reg) : EncodesInRow.Statement (.sknp x) := by
  refine ⟨BitVec.eq_of_toNat_eq ?_, by simp [Instr.row, opcodeTable]⟩
  simp only [encode, Instr.row]
  rw [and_F0FF_toNat, wordXNN_toNat]
  simp; omega

theorem EncodesInRow.ldVxDt (x : Reg) : EncodesInRow.Statement (.ldVxDt x) := by
  refine ⟨BitVec.eq_of_toNat_eq ?_, by simp [Instr.row, opcodeTable]⟩
  simp only [encode, Instr.row]
  rw [and_F0FF_toNat, wordXNN_toNat]
  simp; omega

theorem EncodesInRow.ldDtVx (x : Reg) : EncodesInRow.Statement (.ldDtVx x) := by
  refine ⟨BitVec.eq_of_toNat_eq ?_, by simp [Instr.row, opcodeTable]⟩
  simp only [encode, Instr.row]
  rw [and_F0FF_toNat, wordXNN_toNat]
  simp; omega

theorem EncodesInRow.addIVx (x : Reg) : EncodesInRow.Statement (.addIVx x) := by
  refine ⟨BitVec.eq_of_toNat_eq ?_, by simp [Instr.row, opcodeTable]⟩
  simp only [encode, Instr.row]
  rw [and_F0FF_toNat, wordXNN_toNat]
  simp; omega

end Sys2Proof.Laws
end

