-- ==== Sys2Proof/Tests/Slice0.lean ====
section
/-! SUPPORT. Tests against the vectors of spec/95_test_vectors.md (each named by its id there), and for every statement
with hypotheses a state and operands that meet them. -/

namespace Sys2Proof.Machine

/-! ### Helpers -/

/-- The result is a next state of which `p` holds. -/
def check (r : Result) (p : State → Bool) : Bool :=
  match r with
  | .next t => p t
  | .fault _ => false
  | .refused _ => false

/-- One cycle from `s` with the word `w` at `PC` gives `f` of that state. -/
def stepsTo (s : State) (w : Nat) (f : State → State) : Bool :=
  check (step (s.withFetchWord 16 w)) fun t => decide (t = f (s.withFetchWord 16 w))

/-- The reset state with some registers set. -/
def start (vs : List (Reg × Byte)) : State := vs.foldl (fun s p => s.setV p.1 p.2) State.reset

/-- Bytes placed by the loader. -/
def State.placed (s : State) (a : Nat) (bs : List Byte) : State := { s with mem := s.mem.load a bs }

/-- Pixels turned on beforehand. -/
def State.lit (s : State) (ps : List (Nat × Nat)) : State :=
  { s with fb := ps.foldl (fun d p => d.setPixel p.1 p.2 true) s.fb }

/-- The machine's own counting at the end of a cycle that completes. -/
def State.counted (s : State) : State := { s with keyIn := s.keyIn.tail, cycle := s.cycle + 1 }

theorem of_check {r : Result} {p : State → Bool} (h : check r p = true) : ∃ t, r = .next t ∧ p t = true := by
  cases r with
  | next t => exact ⟨t, rfl, h⟩
  | fault f => cases f
  | refused f => cases h

theorem grid_of_all {s : State} {x y : Reg} {n : Nat}
    (h : (s.drawPixels x y n).all (fun p => onGrid p.1 p.2) = true) :
    ∀ px py, s.spriteAt x y n px py → GridPixel px py := fun px py hp =>
  onGrid_iff.1 (List.all_eq_true.1 h (px, py) (mem_drawPixels.2 hp))

/-! ### Well-formedness: the one check of WellFormed.lean refuses an ill-formed term -/

theorem test_drw_sixteen_rows_refused : (Instr.drw 0 0 16).wellFormed = false := by decide
theorem test_drw_fifteen_rows_accepted : (Instr.drw 0 0 15).wellFormed = true := by decide

/-! ### Decoding: words written out nibble by nibble from R61 and R63 -/

theorem test_decode_ret : decodeWord 0b0000000011101110 = some .ret := by decide
theorem test_decode_jp : decodeWord 0b0001001000110100 = some (.jp 0x234) := by decide
theorem test_decode_call : decodeWord 0b0010101010111100 = some (.call 0xABC) := by decide
theorem test_decode_se : decodeWord 0b0011001001000001 = some (.seVxNn 2 0x41) := by decide
theorem test_decode_sne : decodeWord 0b0100111100000000 = some (.sneVxNn 15 0x00) := by decide
theorem test_decode_ld : decodeWord 0b0110101001111111 = some (.ldVxNn 10 0x7F) := by decide
theorem test_decode_add : decodeWord 0b0111000000000011 = some (.addVxNn 0 0x03) := by decide
theorem test_decode_ld_reg : decodeWord 0b1000010100110000 = some (.ldVxVy 5 3) := by decide
theorem test_decode_se9 : decodeWord 0b1001000100100000 = some (.se9VxVy 1 2) := by decide
theorem test_decode_ld_i : decodeWord 0b1010001011110000 = some (.ldINnn 0x2F0) := by decide
theorem test_decode_rnd : decodeWord 0b1100000100001111 = some (.rndVxNn 1 0x0F) := by decide
theorem test_decode_drw : decodeWord 0b1101000100100101 = some (.drw 1 2 5) := by decide
theorem test_decode_skp : decodeWord 0b1110001110011110 = some (.skp 3) := by decide
theorem test_decode_sknp : decodeWord 0b1110001110100001 = some (.sknp 3) := by decide
theorem test_decode_ld_vx_dt : decodeWord 0b1111001000000111 = some (.ldVxDt 2) := by decide
theorem test_decode_ld_dt_vx : decodeWord 0b1111001000010101 = some (.ldDtVx 2) := by decide
theorem test_decode_add_i : decodeWord 0b1111010000011110 = some (.addIVx 4) := by decide

/-- `00E0`, `0FEE`, `5120`, `8124`, `9121`, `B200`, `E3A0`, `F018` are no instruction (R65). -/
theorem test_decode_unrecognised :
    [0x00E0, 0x0FEE, 0x5120, 0x8124, 0x9121, 0xB200, 0xE3A0, 0xF018].all
      (fun n => (decodeWord (BitVec.ofNat 16 n)).isNone) = true := by decide

/-- Big-endian (R60): `63 C7` is `6 3 C7`, and the bytes after it are left over. -/
theorem test_decode_bytes : decode [0x63, 0xC7, 0x73] = .ok (.ldVxNn 3 0xC7, [0x73]) := by decide
theorem test_decode_short : decode [0x63] = .error .tooShort := by decide
theorem test_encode_drw : encode (.drw 1 2 5) = 0xD125 := by decide
theorem test_table_word : decodeTableWord 16 0xF41E = some (.addIVx 4) := by decide

/-! ### The cycle -/

/-- X5: an odd `PC` is legal. -/
theorem test_x5_odd_pc :
    stepsTo (State.reset.setPc 0x201) 0x6001 (fun s => { s.counted with v := s.v.set 0 1, pc := 0x203 }) = true := by
  decide

/-- X2: the last byte of memory cannot be fetched. -/
theorem test_x2_fetch_range :
    check (step (State.reset.setPc 0x0FFF)) (fun t =>
      decide (t = { State.reset with pc := 0x0FFF, faultRec := ⟨true, 1, 0x0FFF, 0, 0x0FFF⟩ })) = true := by decide

/-- X6: an unrecognised word. -/
theorem test_x6_unrecognised :
    stepsTo ((start [(1, 3), (2, 3)]).setDt 1) 0x00E0
      (fun s => { s.counted with pc := 0x202, dt := 0, events := [.unrec 0x00E0] }) = true := by decide

/-! ### One step of each instruction -/

/-- F3. -/
theorem test_f3_ret :
    stepsTo { State.reset with sp := 15, stack := State.reset.stack.set 15 0x0ABC, dt := 7 } 0x00EE
      (fun s => { s.counted with pc := 0x0ABC, sp := 14, dt := 6 }) = true := by decide
/-- F2. -/
theorem test_f2_ret_underflow :
    stepsTo State.reset 0x00EE (fun s => { s with faultRec := ⟨true, 4, 0x0200, 0x00EE, 0⟩ }) = true := by decide
/-- F5. -/
theorem test_f5_jp : stepsTo State.reset 0x1234 (fun s => { s.counted with pc := 0x0234 }) = true := by decide
/-- F6. -/
theorem test_f6_jp_self : stepsTo (State.reset.setDt 2) 0x1200 (fun s => { s.counted with dt := 1 }) = true := by decide
/-- F10. -/
theorem test_f10_call :
    stepsTo { State.reset with sp := 14, pc := 0x0FFE } 0x2FFF
      (fun s => { s.counted with sp := 15, stack := s.stack.set 15 0x1000, pc := 0x0FFF }) = true := by decide
/-- F11. -/
theorem test_f11_call_overflow :
    stepsTo { State.reset with sp := 15, dt := 9 } 0x2300
      (fun s => { s with faultRec := ⟨true, 3, 0x0200, 0x2300, 16⟩ }) = true := by decide
/-- K6. -/
theorem test_k6_se_at_the_end :
    stepsTo (State.reset.setPc 0x0FFE) 0x3000 (fun s => { s.counted with pc := 0x1002 }) = true := by decide
/-- K2. -/
theorem test_k2_se : stepsTo (start [(2, 0x40)]) 0x3241 (fun s => { s.counted with pc := 0x0202 }) = true := by decide
/-- K3. -/
theorem test_k3_sne : stepsTo (start [(2, 0x41)]) 0x4241 (fun s => { s.counted with pc := 0x0202 }) = true := by decide
/-- K4. -/
theorem test_k4_sne : stepsTo (start [(2, 0x40)]) 0x4241 (fun s => { s.counted with pc := 0x0204 }) = true := by decide
/-- K7. -/
theorem test_k7_se9 :
    stepsTo (start [(1, 7), (2, 7)]) 0x9120 (fun s => { s.counted with pc := 0x0204 }) = true := by decide
/-- K8. -/
theorem test_k8_se9 :
    stepsTo (start [(1, 7), (2, 8)]) 0x9120 (fun s => { s.counted with pc := 0x0202 }) = true := by decide
/-- A1. -/
theorem test_a1_ld :
    stepsTo State.reset 0x6A7F (fun s => { s.counted with pc := 0x0202, v := s.v.set 10 0x7F }) = true := by decide
/-- A4. -/
theorem test_a4_add_no_carry :
    stepsTo (start [(0, 0xFF)]) 0x7001 (fun s => { s.counted with pc := 0x0202, v := s.v.set 0 0x00 }) = true := by decide
/-- A7. -/
theorem test_a7_add_to_vf :
    stepsTo (start [(15, 0xFF)]) 0x7F02 (fun s => { s.counted with pc := 0x0202, v := s.v.set 15 0x01 }) = true := by
  decide
/-- A8. -/
theorem test_a8_ld_reg :
    stepsTo (start [(3, 0x12)]) 0x8530 (fun s => { s.counted with pc := 0x0202, v := s.v.set 5 0x12 }) = true := by decide
/-- A12: the first named byte is taken, the next one stays. -/
theorem test_a12_rnd :
    stepsTo { State.reset with rndIn := [0xA7, 0x11] } 0xC10F
      (fun s => { s.counted with pc := 0x0202, v := s.v.set 1 0x07, rndIn := [0x11] }) = true := by decide
/-- I2. -/
theorem test_i2_ld_i :
    stepsTo (State.reset.setIndex 0x1234) 0xAFFF (fun s => { s.counted with pc := 0x0202, index := 0x0FFF }) = true := by
  decide
/-- I5. -/
theorem test_i5_add_i :
    stepsTo ((start [(4, 0xFE)]).setIndex 0xFF01) 0xF41E
      (fun s => { s.counted with pc := 0x0202, index := 0xFFFF }) = true := by decide
/-- I6. -/
theorem test_i6_add_i_overflow :
    stepsTo ((start [(4, 0xFF)]).setIndex 0xFF01) 0xF41E
      (fun s => { s with faultRec := ⟨true, 6, 0x0200, 0xF41E, 0x10000⟩ }) = true := by decide
/-- W17: the coordinate is the old `V[15]`, and the pixel drawn was on. -/
theorem test_w17_drw_collision :
    stepsTo ((((start [(15, 5), (1, 2)]).setIndex 0x300).placed 0x300 [0x80]).lit [(5, 2)]) 0xDF11
      (fun s => { s.counted with pc := 0x0202, v := s.v.set 15 1, fb := State.reset.fb, events := [.repaint] }) = true := by
  decide
/-- W9: the pixels before the off-grid one are on, the core state is as before. -/
theorem test_w9_drw_off_grid :
    stepsTo (((start [(0, 60), (15, 9)]).setIndex 0x300).placed 0x300 [0xF8]) 0xD011
      (fun s => { s.lit [(60, 0), (61, 0), (62, 0), (63, 0)] with
        events := [.repaint], faultRec := ⟨true, 7, 0x0200, 0xD011, 0x40⟩ }) = true := by decide
/-- Y1. -/
theorem test_y1_skp :
    stepsTo { start [(3, 0x0A)] with keyIn := [0x0400] } 0xE39E (fun s => { s.counted with pc := 0x0204 }) = true := by
  decide
/-- Y5. -/
theorem test_y5_skp_key_range :
    stepsTo { start [(3, 0x10)] with keyIn := [0xFFFF] } 0xE39E
      (fun s => { s with faultRec := ⟨true, 5, 0x0200, 0xE39E, 0x10⟩ }) = true := by decide
/-- Y9. -/
theorem test_y9_sknp :
    stepsTo { start [(3, 0x0F)] with keyIn := [0x7FFF] } 0xE3A1 (fun s => { s.counted with pc := 0x0204 }) = true := by
  decide
/-- Y4. -/
theorem test_y4_sknp :
    stepsTo { start [(3, 0x0A)] with keyIn := [0x0400] } 0xE3A1 (fun s => { s.counted with pc := 0x0202 }) = true := by
  decide
/-- T1. -/
theorem test_t1_ld_vx_dt :
    stepsTo (State.reset.setDt 0x10) 0xF207
      (fun s => { s.counted with pc := 0x0202, v := s.v.set 2 0x10, dt := 0x0F }) = true := by decide
/-- T3. -/
theorem test_t3_ld_dt_vx :
    stepsTo (start [(2, 3)]) 0xF215 (fun s => { s.counted with pc := 0x0202, dt := 2 }) = true := by decide
/-- T4. -/
theorem test_t4_ld_dt_vx_zero :
    stepsTo ((start [(2, 0)]).setDt 9) 0xF215 (fun s => { s.counted with pc := 0x0202, dt := 0 }) = true := by decide

/-! ### Witnesses: for each statement with hypotheses, states and operands that meet them, clause by clause -/

/-- A next state of the step with the property `p`. -/
def steps (s : State) (p : State → Bool) : Prop := ∃ t, step s = .next t ∧ p t = true

/-- The state before a cycle with the word `w` at `PC`. -/
def at_ (s : State) (w : Nat) : State := s.withFetchWord 16 w

/-- A cycle could run: the premises of the statements about a step. -/
def Ready (s : State) : Prop := s.faulted = false ∧ s.pc.toNat ≤ 0x0FFE

theorem witness_DecodeOfEncode : (Instr.drw 15 15 15).wellFormed = true ∧ (Instr.jp 0xFFF).wellFormed = true := by decide
theorem witness_EncodeOfDecode : decodeWord 0xDFFF = some (.drw 15 15 15) ∧ decodeWord 0x00EE = some .ret := by decide
/-- A word of the last row, a word of two rows compared, a word of no row. -/
theorem witness_DecoderIsOpcodeTable :
    (∃ r ∈ opcodeTable, (0xFF1E : Word) &&& r.mask = r.pattern) ∧ decodeWord 0xF01F = none ∧
    ∀ r ∈ opcodeTable, (0xF01F : Word) &&& r.mask ≠ r.pattern := by decide
theorem witness_ResetValues : (0x50 ≤ 0x50 ∧ 0x50 ≤ 0xFFF) ∧ (0x50 ≤ 0xFFF ∧ 0xFFF ≤ 0xFFF) := by decide
theorem witness_LaunchMemory :
    (List.replicate 80 (0xF0 : Byte)).length = 80 ∧ (List.replicate 3584 (0x60 : Byte)).length ≤ 3584 ∧
    0x4F < 0x50 ∧ (0x50 ≤ 0x50 ∧ 0x1FF < 0x200) ∧ 3583 < (List.replicate 3584 (0x60 : Byte)).length ∧
    0x200 + (List.replicate 3583 (0x60 : Byte)).length ≤ 0xFFF := by
  simp only [List.length_replicate]; decide
theorem witness_KeypadLevelsAreFree :
    steps { State.reset with keyIn := [0x0001, 0x8000] } (fun t => t.faulted == false) := of_check (by decide)
theorem witness_PlacedWordIsFetched :
    (at_ (State.reset.setPc 0x0FFE) 0x1234).mem.wf ∧ (at_ (State.reset.setPc 0x0FFE) 0x1234).pc.toNat ≤ 0x0FFE := by decide
/-- An instruction that completes, and one that faults. -/
theorem witness_StepRunsDecodedInstruction :
    (Ready (at_ State.reset 0x6A7F) ∧
      decode [(at_ State.reset 0x6A7F).mem.read 0x200, (at_ State.reset 0x6A7F).mem.read 0x201] =
        .ok (.ldVxNn 10 0x7F, []) ∧
      ∃ t, exec (.ldVxNn 10 0x7F) { at_ State.reset 0x6A7F with pc := 0x202 } = .next t ∧ (t.faulted == false) = true) ∧
    (Ready (at_ State.reset 0x00EE) ∧
      decode [(at_ State.reset 0x00EE).mem.read 0x200, (at_ State.reset 0x00EE).mem.read 0x201] = .ok (.ret, []) ∧
      ∃ t, exec .ret { at_ State.reset 0x00EE with pc := 0x202 } = .next t ∧ t.faulted = true) :=
  ⟨⟨by unfold Ready; decide, by decide, of_check (by decide)⟩, by unfold Ready; decide, by decide, of_check (by decide)⟩
theorem witness_UnrecognisedWordIsIgnored :
    Ready (at_ (State.reset.setPc 0x0FFE) 0xFFFF) ∧
    decodeWord (at_ (State.reset.setPc 0x0FFE) 0xFFFF).fetchWord = none := by unfold Ready; decide
theorem witness_FetchOutOfRangeFaults :
    ((State.reset.setPc 0x0FFF).faulted = false ∧ 0x0FFE < (State.reset.setPc 0x0FFF).pc.toNat) ∧
    Ready (State.reset.setPc 0x0FFE) ∧ (State.reset.setPc 0x0FFE).mem.read 0x0FFE = 0 ∧
    (State.reset.setPc 0x0FFE).mem.read 0x0FFF = 0 := by unfold Ready; decide
theorem witness_FaultedCoreDoesNothing : (fetchFault (State.reset.setPc 0x0FFF)).faulted = true := by decide
/-- A cycle that faults, and one that does not. -/
theorem witness_FaultsAreTheTable :
    (State.reset.faulted = false ∧ steps (at_ State.reset 0x00EE) (fun t => t.faulted)) ∧
    steps (at_ State.reset 0x1234) (fun t => !t.faulted) :=
  ⟨⟨by decide, of_check (by decide)⟩, of_check (by decide)⟩
/-- A fetch fault; a fault of an instruction that is not `DISPLAY_RANGE`; one that is. -/
theorem witness_FaultsArePrecise :
    steps (State.reset.setPc 0x0FFF) (fun t => t.faulted && t.faultRec.fcause == 1) ∧
    steps (at_ State.reset 0x00EE) (fun t => t.faulted && t.faultRec.fcause == 4) ∧
    steps (at_ (((start [(0, 57)]).setIndex 0x300).placed 0x300 [0xFF]) 0xD011)
      (fun t => t.faulted && t.faultRec.fcause == 7) :=
  ⟨of_check (by decide), of_check (by decide), of_check (by decide)⟩
/-- A fetch out of range; and W13, a sprite both out of memory and off the grid. -/
theorem witness_FaultPriority :
    (State.reset.faulted = false ∧ 0x0FFE < (State.reset.setPc 0x0FFF).pc.toNat ∧
      steps (State.reset.setPc 0x0FFF) (fun _ => true)) ∧
    (Ready (at_ ((start [(0, 100), (1, 100)]).setIndex 0x0FF2) 0xD01F) ∧
      decodeWord (at_ ((start [(0, 100), (1, 100)]).setIndex 0x0FF2) 0xD01F).fetchWord = some (.drw 0 1 15) ∧
      ¬ (at_ ((start [(0, 100), (1, 100)]).setIndex 0x0FF2) 0xD01F).spriteInMemory 15 ∧
      steps (at_ ((start [(0, 100), (1, 100)]).setIndex 0x0FF2) 0xD01F) (fun _ => true)) :=
  ⟨⟨by decide, by decide, of_check (by decide)⟩, by unfold Ready; decide, by decide,
    by unfold State.spriteInMemory; decide, of_check (by decide)⟩
/-- An `FX15`, an `FX07`, and another instruction from `DT = 0` and from above. -/
theorem witness_TimerDecrementsOncePerCycle :
    steps (at_ (start [(2, 0xFF)]) 0xF215) (fun t => !t.faulted) ∧
    (decodeWord (at_ (State.reset.setDt 1) 0xF007).fetchWord = some (.ldVxDt 0) ∧
      steps (at_ (State.reset.setDt 1) 0xF007) (fun t => !t.faulted)) ∧
    steps (at_ State.reset 0x1234) (fun t => !t.faulted) ∧ steps (at_ (State.reset.setDt 1) 0x1234) (fun t => !t.faulted) :=
  ⟨of_check (by decide), ⟨by decide, of_check (by decide)⟩, of_check (by decide), of_check (by decide)⟩
/-- One cycle of a self-jump from `DT = 1`. -/
theorem witness_DelayTimerDecays :
    ∃ run : Nat → State, ∀ j < 1, (run j).faulted = false ∧ step (run j) = .next (run (j + 1)) ∧
      (run (j + 1)).faulted = false ∧ ∀ x, decodeWord (run j).fetchWord ≠ some (.ldDtVx x) := by
  obtain ⟨t, ht, hp⟩ := of_check (r := step (at_ (State.reset.setDt 1) 0x1200)) (p := fun t => !t.faulted) (by decide)
  have h0 : (at_ (State.reset.setDt 1) 0x1200).faulted = false ∧
      ∀ x, decodeWord (at_ (State.reset.setDt 1) 0x1200).fetchWord ≠ some (.ldDtVx x) := by decide
  refine ⟨fun j => if j = 0 then at_ (State.reset.setDt 1) 0x1200 else t, fun j hj => ?_⟩
  obtain rfl : j = 0 := by omega
  exact ⟨h0.1, ht, by simpa using hp, h0.2⟩
theorem witness_MemoryIsNeverWritten : steps (at_ State.reset 0xF055) (fun _ => true) := of_check (by decide)
theorem witness_SoundTimerIsDead : steps (at_ (start [(2, 5)]) 0xF218) (fun _ => true) := of_check (by decide)
/-- A step that changes a register, for each of the six instructions that can. -/
theorem witness_OnlyDestinationRegisterChanges :
    steps (at_ State.reset 0x6FFF) (fun t => t.getV 15 != 0) ∧ steps (at_ State.reset 0x7001) (fun t => t.getV 0 != 0) ∧
    steps (at_ (start [(1, 9)]) 0x8010) (fun t => t.getV 0 != 0) ∧
    steps (at_ { State.reset with rndIn := [0xFF] } 0xC0FF) (fun t => t.getV 0 != 0) ∧
    steps (at_ (State.reset.setDt 5) 0xF007) (fun t => t.getV 0 != 0) ∧
    steps (at_ (start [(15, 9)]) 0xD000) (fun t => t.getV 15 != 9) :=
  ⟨of_check (by decide), of_check (by decide), of_check (by decide), of_check (by decide), of_check (by decide),
    of_check (by decide)⟩
/-- A step for each clause: `I`, `SP`, a slot, a pixel, a random byte. -/
theorem witness_OnlyOwnersWrite :
    steps (at_ State.reset 0xA2F0) (fun t => t.index != 0) ∧
    steps (at_ { State.reset with sp := 1, stack := State.reset.stack.set 1 0x300 } 0x00EE) (fun t => t.sp != 1) ∧
    steps (at_ State.reset 0x2300) (fun t => t.slot 1 != 0) ∧
    steps (at_ (State.reset.setIndex 0x0000) 0xD005) (fun t => t.fb.pixel 0 0) ∧
    steps (at_ { State.reset with rndIn := [1] } 0xC0FF) (fun t => t.rndIn == []) :=
  ⟨of_check (by decide), of_check (by decide), of_check (by decide), of_check (by decide), of_check (by decide)⟩
theorem witness_RetReturns :
    ({ State.reset with sp := 1 } : State).sp ≠ 0 ∧ ({ State.reset with sp := 15 } : State).sp ≠ 0 ∧
    State.reset.sp = 0 := by decide
theorem witness_JpJumps : nibble 0x1000 3 = 0x1 ∧ nibble 0x1FFF 3 = 0x1 := by decide
theorem witness_SelfJumpOnlyCountsTime :
    Ready (at_ (State.reset.setPc 0x0FFE) 0x1FFE) ∧
    decodeWord (at_ (State.reset.setPc 0x0FFE) 0x1FFE).fetchWord = some (.jp 0xFFE) ∧
    (0xFFE : Addr).toNat = (at_ (State.reset.setPc 0x0FFE) 0x1FFE).pc.toNat := by unfold Ready; decide
theorem witness_CallPushesReturnAddress :
    (nibble 0x2000 3 = 0x2 ∧ nibble 0x2FFF 3 = 0x2) ∧ State.reset.sp ≠ 15 ∧
    ({ State.reset with sp := 14 } : State).sp ≠ 15 ∧ ({ State.reset with sp := 15 } : State).sp = 15 := by decide
/-- A call at depth 14 to the last address that can be fetched from. -/
theorem witness_CallThenReturn :
    Ready (at_ (({ State.reset with sp := 14 } : State).placed 0xFFE [0x00, 0xEE]) 0x2FFE) ∧
    decodeWord (at_ (({ State.reset with sp := 14 } : State).placed 0xFFE [0x00, 0xEE]) 0x2FFE).fetchWord =
      some (.call 0xFFE) ∧
    (at_ (({ State.reset with sp := 14 } : State).placed 0xFFE [0x00, 0xEE]) 0x2FFE).sp ≠ 15 ∧
    (0xFFE : Addr).toNat ≤ 0x0FFE ∧
    (at_ (({ State.reset with sp := 14 } : State).placed 0xFFE [0x00, 0xEE]) 0x2FFE).mem.read 0xFFE = 0x00 ∧
    (at_ (({ State.reset with sp := 14 } : State).placed 0xFFE [0x00, 0xEE]) 0x2FFE).mem.read 0xFFF = 0xEE := by
  unfold Ready; decide
theorem witness_SeSkipsOnEqual :
    nibble 0x3FFF 3 = 0x3 ∧ (start [(15, 0xFF)]).getV 15 = 0xFF ∧ (start [(15, 0xFE)]).getV 15 ≠ 0xFF := by decide
theorem witness_SneSkipsOnDifferent :
    nibble 0x4FFF 3 = 0x4 ∧ (start [(15, 0xFE)]).getV 15 ≠ 0xFF ∧ (start [(15, 0xFF)]).getV 15 = 0xFF := by decide
theorem witness_Se9SkipsOnEqual :
    (nibble 0x9120 3 = 0x9 ∧ nibble 0x9120 0 = 0) ∧ (nibble 0x9121 3 = 0x9 ∧ nibble 0x9121 0 ≠ 0) ∧
    (start [(1, 0xFF), (2, 0xFF)]).getV 1 = (start [(1, 0xFF), (2, 0xFF)]).getV 2 ∧
    (start [(1, 0xFF), (2, 0xFE)]).getV 1 ≠ (start [(1, 0xFF), (2, 0xFE)]).getV 2 := by decide
/-- Equal registers, and different ones. -/
theorem witness_SkipsAreComplementary :
    (Ready (at_ (start [(2, 0x41)]) 0x3241) ∧ Ready (at_ (start [(2, 0x41)]) 0x4241) ∧
      (at_ (start [(2, 0x41)]) 0x4241).getV 2 = (at_ (start [(2, 0x41)]) 0x3241).getV 2 ∧
      decodeWord (at_ (start [(2, 0x41)]) 0x3241).fetchWord = some (.seVxNn 2 0x41) ∧
      decodeWord (at_ (start [(2, 0x41)]) 0x4241).fetchWord = some (.sneVxNn 2 0x41) ∧
      (at_ (start [(2, 0x41)]) 0x3241).getV 2 = 0x41) ∧
    (at_ (start [(2, 0x40)]) 0x4241).getV 2 = (at_ (start [(2, 0x40)]) 0x3241).getV 2 ∧
    (at_ (start [(2, 0x40)]) 0x3241).getV 2 ≠ 0x41 := by unfold Ready; decide
/-- Key 15, pressed and released; key 16. -/
theorem witness_SkpSkipsOnPressed :
    (nibble 0xEF9E 3 = 0xE ∧ (0xEF9E : Word).toNat % 256 = 0x9E) ∧ ((start [(3, 15)]).getV 3).toNat ≤ 15 ∧
    State.key { start [(3, 15)] with keyIn := [0x8000] } 15 = true ∧
    State.key { start [(3, 15)] with keyIn := [0x7FFF] } 15 = false ∧ 15 < ((start [(3, 16)]).getV 3).toNat := by decide
theorem witness_SknpSkipsOnReleased :
    (nibble 0xEFA1 3 = 0xE ∧ (0xEFA1 : Word).toNat % 256 = 0xA1) ∧ ((start [(3, 15)]).getV 3).toNat ≤ 15 ∧
    State.key { start [(3, 15)] with keyIn := [0x7FFF] } 15 = false ∧
    State.key { start [(3, 15)] with keyIn := [0x8000] } 15 = true ∧ 15 < ((start [(3, 16)]).getV 3).toNat := by decide
theorem witness_LdLoadsImmediate : nibble 0x6FFF 3 = 0x6 ∧ nibble 0x6000 3 = 0x6 := by decide
theorem witness_AddAddsModulo256 : nibble 0x7FFF 3 = 0x7 ∧ nibble 0x7000 3 = 0x7 := by decide
theorem witness_LdCopiesRegister :
    (nibble 0x8FF0 3 = 0x8 ∧ nibble 0x8FF0 0 = 0) ∧ (nibble 0x8FF1 3 = 0x8 ∧ nibble 0x8FF1 0 ≠ 0) := by decide
theorem witness_RndAndsRandomByte : nibble 0xCFFF 3 = 0xC ∧ nibble 0xC000 3 = 0xC := by decide
/-- S1 at the last address where both words fit. -/
def loadThenAdd : State := (State.reset.setPc 0xFFC).placed 0xFFC [0x63, 0xC7, 0x73, 0x00]

theorem witness_LoadThenZeroAddIsIdentity :
    loadThenAdd.faulted = false ∧ loadThenAdd.pc.toNat ≤ 0x0FFC ∧ decodeWord loadThenAdd.fetchWord = some (.ldVxNn 3 0xC7) ∧
    decodeWord { loadThenAdd with pc := loadThenAdd.pc + 2 }.fetchWord = some (.addVxNn 3 0) := by decide
theorem witness_LdISetsIndex : nibble 0xAFFF 3 = 0xA ∧ nibble 0xA000 3 = 0xA := by decide
/-- The greatest sum that fits, and the least that does not. -/
theorem witness_AddIAddsOrFaults :
    (nibble 0xFF1E 3 = 0xF ∧ (0xFF1E : Word).toNat % 256 = 0x1E) ∧
    ((start [(4, 0xFE)]).setIndex 0xFF01).index.toNat + (((start [(4, 0xFE)]).setIndex 0xFF01).getV 4).toNat ≤ 0xFFFF ∧
    0xFFFF < ((start [(4, 0xFF)]).setIndex 0xFF01).index.toNat + (((start [(4, 0xFF)]).setIndex 0xFF01).getV 4).toNat := by
  decide
theorem witness_LdVxDtReadsTimer :
    (nibble 0xFF07 3 = 0xF ∧ (0xFF07 : Word).toNat % 256 = 0x07) ∧ Ready (at_ State.reset 0xFF07) ∧
    decodeWord (at_ State.reset 0xFF07).fetchWord = some (.ldVxDt 15) := by unfold Ready; decide
theorem witness_LdDtVxWritesTimer :
    (nibble 0xFF15 3 = 0xF ∧ (0xFF15 : Word).toNat % 256 = 0x15) ∧ Ready (at_ State.reset 0xFF15) ∧
    decodeWord (at_ State.reset 0xFF15).fetchWord = some (.ldDtVx 15) := by unfold Ready; decide

/-- W5: one row at the bottom-right corner of the grid. -/
def corner : State := ((start [(0, 56), (1, 31)]).setIndex 0x300).placed 0x300 [0xFF]

theorem corner_spriteAt : corner.spriteAt 0 1 1 63 31 := by rw [← mem_drawPixels]; decide

/-- W5, whose pixels are off; the same with one on; and a sprite with no set bit in the last byte of memory. -/
theorem witness_DrawTogglesSetBits :
    (corner.sink = .strict ∧ corner.spriteInMemory 1 ∧ (∀ px py, corner.spriteAt 0 1 1 px py → GridPixel px py)) ∧
    (∃ px py, corner.spriteAt 0 1 1 px py) ∧
    (∃ px py, (corner.lit [(63, 31)]).spriteAt 0 1 1 px py ∧ (corner.lit [(63, 31)]).fb.pixel px py = true) ∧
    ((State.reset.setIndex 0xFFF).spriteInMemory 1 ∧ ¬ ∃ px py, (State.reset.setIndex 0xFFF).spriteAt 0 1 1 px py) := by
  refine ⟨⟨by decide, by unfold State.spriteInMemory; decide, grid_of_all (by decide)⟩, ⟨63, 31, corner_spriteAt⟩,
    ⟨63, 31, corner_spriteAt, by decide⟩, by unfold State.spriteInMemory; decide, ?_⟩
  rintro ⟨px, py, h⟩
  rw [← mem_drawPixels, show (State.reset.setIndex 0xFFF).drawPixels 0 1 1 = [] by decide] at h
  cases h
/-- A sprite half off the grid. -/
theorem witness_DrawOnIgnoringSink :
    ({ corner with sink := .ignore } : State).sink = .ignore ∧ ({ corner with sink := .ignore } : State).spriteInMemory 1 ∧
    GridPixel 63 31 ∧ corner.spriteAt 0 1 1 63 31 ∧ (corner.lit [(63, 31)]).fb.pixel 63 31 = true :=
  ⟨rfl, by unfold State.spriteInMemory; decide, by unfold GridPixel; decide, corner_spriteAt, by decide⟩
/-- Fifteen rows ending in the last byte of memory; and a set bit that wraps to pixel (0, 0). -/
theorem witness_DrawOnWrappingSink :
    ({ State.reset with sink := .wrap, index := 0xFF1 } : State).sink = .wrap ∧ 15 ≤ 15 ∧
    ({ State.reset with sink := .wrap, index := 0xFF1 } : State).spriteInMemory 15 ∧
    (∃ qx qy, (((start [(0, 64), (1, 32)]).setIndex 0x300).placed 0x300 [0x80]).spriteAt 0 1 1 qx qy ∧
      qx % 64 = 0 ∧ qy % 32 = 0) :=
  ⟨rfl, by decide, by unfold State.spriteInMemory; decide, 64, 32, by rw [← mem_drawPixels]; decide, by decide, by decide⟩
/-- W10, W12 and the greatest `I`. -/
theorem witness_SpriteOutOfMemoryFaults :
    0 < 2 ∧ 0x0FFF < (State.reset.setIndex 0x0FFF).index.toNat + 2 - 1 ∧
    0x0FFF < (State.reset.setIndex 0x1000).index.toNat + 1 - 1 ∧
    0x0FFF < (State.reset.setIndex 0xFFFF).index.toNat + 15 - 1 := by decide

/-- W9: four set bits on the grid, the fifth off it. -/
def edge : State := ((start [(0, 60)]).setIndex 0x300).placed 0x300 [0xF8]

theorem witness_OffGridPixelFaults :
    edge.sink = .strict ∧ 1 ≤ 15 ∧ edge.spriteInMemory 1 ∧ 0 < 1 ∧ edge.bitSet 0 4 ∧
    ¬ GridPixel ((edge.getV 0).toNat + 4) ((edge.getV 1).toNat + 0) ∧
    (∀ r' c', edge.bitSet r' c' → r' < 0 ∨ (r' = 0 ∧ c' < 4) →
      GridPixel ((edge.getV 0).toNat + c') ((edge.getV 1).toNat + r')) ∧
    (edge.bitSet 0 3 ∧ 63 = (edge.getV 0).toNat + 3) := by
  refine ⟨by decide, by decide, by unfold State.spriteInMemory; decide, by decide, by unfold State.bitSet; decide,
    by unfold GridPixel; decide, ?_, by unfold State.bitSet; decide⟩
  rintro r' c' - (h | ⟨rfl, h⟩)
  · omega
  · have h60 : (edge.getV 0).toNat = 60 := by decide
    have h0 : (edge.getV 1).toNat = 0 := by decide
    unfold GridPixel
    omega
theorem witness_DrawTwiceRestoresDisplay :
    (0 : Reg) ≠ 15 ∧ (1 : Reg) ≠ 15 ∧ corner.sink = .strict ∧ corner.spriteInMemory 1 ∧
    (∀ px py, corner.spriteAt 0 1 1 px py → GridPixel px py) ∧
    (∃ px py, corner.spriteAt 0 1 1 px py ∧ corner.fb.pixel px py = false) :=
  ⟨by decide, by decide, by decide, by unfold State.spriteInMemory; decide, grid_of_all (by decide), 63, 31,
    corner_spriteAt, by decide⟩

/-- A return at depth 0 in memory: a state of the invariant that is not the reset state. -/
theorem witness_invariant : Inv (at_ State.reset 0x00EE) where
  mem := by decide
  pc := by decide
  st := by decide
  slotZero := by decide
  slots := by decide
  called := by decide
  clear := by decide
  explains := fun h => absurd h (by decide)
theorem witness_StepKeepsInvariant : Inv (at_ State.reset 0x00EE) ∧ steps (at_ State.reset 0x00EE) (fun _ => true) :=
  ⟨witness_invariant, of_check (by decide)⟩
theorem witness_ResetEventKeepsInvariant : Inv (at_ State.reset 0x00EE) := witness_invariant
theorem witness_FaultIsFinal :
    Inv (at_ State.reset 0x00EE) ∧
    ∃ t, Sys2Proof.core.run 1 (at_ State.reset 0x00EE) = .next t ∧ t.faulted = true :=
  ⟨witness_invariant, of_check (r := Sys2Proof.core.run 1 (at_ State.reset 0x00EE)) (by decide)⟩

end Sys2Proof.Machine
end

/-! PROOF. The state family (spec/10_state.md): reset, launch, who writes what, and the invariant. -/

namespace Sys2Proof

/-! ### Decoding drops no bit (R61, R63) -/

/-- What a word decodes to is well formed, and its encoding is the word. -/
theorem encode_eq_and_wellFormed_of_decodeWord {w : Word} {i : Instr} (h : decodeWord w = some i) :
    encode i = w ∧ i.wellFormed = true := by
  have hop {k : Nat} (hk : (fieldOp w).toNat = k) : fieldOp w = BitVec.ofNat 4 k := by
    rw [← hk, BitVec.ofNat_toNat, BitVec.setWidth_eq]
  have hxyn {op : BitVec 4} (ho : fieldOp w = op) (hn : fieldN w = 0) :
      wordXYN op (fieldX w) (fieldY w) 0 = w := by rw [← hn]; exact wordXYN_fields ho
  have hxnn {op : BitVec 4} {nn : Byte} (ho : fieldOp w = op) (hn : fieldNN w = nn) :
      wordXNN op (fieldX w) nn = w := by rw [← hn]; exact wordXNN_fields ho
  unfold decodeWord at h
  split at h
  case h_1 => split at h <;> cases h; exact ⟨Eq.symm ‹_›, rfl⟩
  case h_2 | h_3 | h_10 => cases h; exact ⟨wordNNN_fields (hop ‹_›), rfl⟩
  case h_4 | h_5 | h_6 | h_7 | h_11 => cases h; exact ⟨wordXNN_fields (hop ‹_›), rfl⟩
  case h_8 | h_9 => split at h <;> cases h; exact ⟨hxyn (hop ‹_›) ‹_›, rfl⟩
  case h_12 =>
    cases h
    have hn : fieldN w ≤ 15 := by rw [fieldN_eq]; omega
    exact ⟨wordXYN_fields (hop ‹_›), decide_eq_true hn⟩
  case h_13 =>
    split at h
    · cases h; exact ⟨hxnn (hop ‹_›) ‹_›, rfl⟩
    · split at h <;> cases h; exact ⟨hxnn (hop ‹_›) ‹_›, rfl⟩
  case h_14 =>
    split at h
    · cases h; exact ⟨hxnn (hop ‹_›) ‹_›, rfl⟩
    · split at h
      · cases h; exact ⟨hxnn (hop ‹_›) ‹_›, rfl⟩
      · split at h <;> cases h; exact ⟨hxnn (hop ‹_›) ‹_›, rfl⟩
  case h_15 => cases h

end Sys2Proof

namespace Sys2Proof.Machine

/-! ### What an instruction can answer, said once -/

/-- `i` loads `V[x]` with a value that is neither random nor the collision flag (R10). -/
def LoadsReg (x : Reg) (i : Instr) : Prop :=
  (∃ nn, i = .ldVxNn x nn) ∨ (∃ nn, i = .addVxNn x nn) ∨ (∃ z, i = .ldVxVy x z) ∨ i = .ldVxDt x

/-- The states an instruction can answer, by what it writes: with the instruction that may write it, and for a fault
the row of R202. -/
inductive ExecEffect (i : Instr) (s : State) : State → Prop
  | raised (c : Cause) (info : Nat) (hinfo : info < 2 ^ 32) (hc : FaultCondition (raise i c info s) i) :
      ExecEffect i s (raise i c info s)
  | drawStopped (x y : Reg) (n : Nat) (c : Canvas) (px py : Nat) (hi : i = .drw x y n) (hm : s.spriteInMemory n)
      (hk : s.sink = .strict) (hp : s.spriteAt x y n px py) (hg : ¬ GridPixel px py) :
      ExecEffect i s (raise i .displayRange (pixelInfo px py) (s.show c))
  | drawn (x y : Reg) (n : Nat) (c : Canvas) (hi : i = .drw x y n) :
      ExecEffect i s ((s.show c).setV flagReg (collisionFlag c.collided))
  | jumped (nnn : Addr) : ExecEffect i s (s.setPc (zextAddr nnn))
  | skipped (b : Bool) : ExecEffect i s (s.skipIf b)
  | called (nnn : Addr) (hi : i = .call nnn) (hsp : s.sp ≠ 15) :
      ExecEffect i s ((s.push s.pc).setPc (zextAddr nnn))
  | returned (hi : i = .ret) (hsp : s.sp ≠ 0) : ExecEffect i s s.popPc
  | loaded (x : Reg) (b : Byte) (hi : LoadsReg x i) : ExecEffect i s (s.setV x b)
  | randomLoaded (x : Reg) (nn b : Byte) (hi : i = .rndVxNn x nn) : ExecEffect i s (s.takeRnd.setV x b)
  | indexSet (w : Word) (hi : (∃ nnn, i = .ldINnn nnn) ∨ ∃ x, i = .addIVx x) : ExecEffect i s (s.setIndex w)
  | timerSet (b : Byte) : ExecEffect i s (s.setDt b)

/-- `FINFO` has 32 bits and holds a value below `2 ^ 32` as it is (R204). -/
theorem finfo_raise_of_lt {i : Instr} {c : Cause} {info : Nat} {s : State} (h : info < 2 ^ 32) :
    (raise i c info s).faultRec.finfo.toNat = info := by
  rw [raise, raiseAt_faultRec, BitVec.toNat_ofNat, Nat.mod_eq_of_lt h]

theorem keyNumber_lt (s : State) (x : Reg) : s.keyNumber x < 2 ^ 32 :=
  lt_trans (s.getV x).isLt (by decide)

theorem indexSum_lt (s : State) (x : Reg) : s.indexSum x < 2 ^ 32 := by
  have := s.index.isLt
  have := (s.getV x).isLt
  unfold State.indexSum; omega

/-- The value raised for a sprite that leaves memory is the first address out of range (R143). -/
theorem drw_dataRange_condition {s : State} {n : Nat} (x y : Reg) (h : s.spriteOutOfRange n = true) :
    max s.index.toNat 0x1000 < 2 ^ 32 ∧
      FaultCondition (raise (.drw x y n) .dataRange (max s.index.toNat 0x1000) s) (.drw x y n) := by
  have := s.index.isLt
  have hlt : max s.index.toNat 0x1000 < 2 ^ 32 := by omega
  simp only [State.spriteOutOfRange, Bool.and_eq_true, decide_eq_true_eq] at h
  refine ⟨hlt, .inl ⟨rfl, h.1, h.2, ?_⟩⟩
  rw [finfo_raise_of_lt hlt]
  rw [raise, raiseAt_index]
  by_cases hi : 0x0FFF < s.index.toNat
  · rw [if_pos hi]; omega
  · rw [if_neg hi]; omega

theorem execDrw_effect {x y : Reg} {n : Nat} {s t : State} (h : execDrw x y n s = .next t) :
    ExecEffect (.drw x y n) s t := by
  rcases execDrw_cases x y n s with ⟨hr, he⟩ | ⟨c, -, -, he⟩ | ⟨c, px, py, hr, hp, he⟩ <;> cases he.symm.trans h
  · obtain ⟨hlt, hc⟩ := drw_dataRange_condition x y hr
    exact .raised _ _ hlt hc
  · exact .drawn x y n c rfl
  · obtain ⟨hk, hmem, hg⟩ := plot_offGrid_inv hp
    exact .drawStopped x y n c px py rfl (spriteOutOfRange_iff.1 hr) hk (mem_drawPixels.1 hmem)
      (by simp [← onGrid_iff, hg])

/-- Every answer of an instruction is one of these. -/
theorem exec_effect {i : Instr} {s t : State} (h : exec i s = .next t) : ExecEffect i s t := by
  cases i with
  | ret =>
    simp only [exec, execRet] at h
    split at h <;> cases h
    · exact .raised _ _ (by decide) ⟨rfl, ‹_›, rfl⟩
    · exact .returned rfl ‹_›
  | jp nnn => cases h; exact .jumped nnn
  | call nnn =>
    simp only [exec, execCall] at h
    split at h <;> cases h
    · exact .raised _ _ (by decide) ⟨rfl, ‹_›, rfl⟩
    · exact .called nnn rfl ‹_›
  | seVxNn x nn => cases h; exact .skipped _
  | sneVxNn x nn => cases h; exact .skipped _
  | ldVxNn x nn => cases h; exact .loaded x _ (.inl ⟨nn, rfl⟩)
  | addVxNn x nn => cases h; exact .loaded x _ (.inr (.inl ⟨nn, rfl⟩))
  | ldVxVy x y => cases h; exact .loaded x _ (.inr (.inr (.inl ⟨y, rfl⟩)))
  | se9VxVy x y => cases h; exact .skipped _
  | ldINnn nnn => cases h; exact .indexSet _ (.inl ⟨nnn, rfl⟩)
  | rndVxNn x nn => cases h; exact .randomLoaded x nn _ rfl
  | drw x y n => exact execDrw_effect h
  | skp x =>
    simp only [exec, execSkp] at h
    split at h <;> cases h
    · exact .raised _ _ (keyNumber_lt s x) ⟨rfl, ‹_›, finfo_raise_of_lt (keyNumber_lt s x)⟩
    · exact .skipped _
  | sknp x =>
    simp only [exec, execSknp] at h
    split at h <;> cases h
    · exact .raised _ _ (keyNumber_lt s x) ⟨rfl, ‹_›, finfo_raise_of_lt (keyNumber_lt s x)⟩
    · exact .skipped _
  | ldVxDt x => cases h; exact .loaded x _ (.inr (.inr (.inr rfl)))
  | ldDtVx x => cases h; exact .timerSet _
  | addIVx x =>
    simp only [exec, execAddIVx] at h
    split at h <;> cases h
    · exact .raised _ _ (indexSum_lt s x) ⟨rfl, ‹_›, finfo_raise_of_lt (indexSum_lt s x)⟩
    · exact .indexSet _ (.inr ⟨x, rfl⟩)

/-! ### Faults: the record says which row of R202 it was (R204, R205) -/

theorem pixelInfo_eq {px py : Nat} (h : px < 65536) : pixelInfo px py = py * 65536 + px := by
  rw [pixelInfo, ← Nat.shiftLeft_add_eq_or_of_lt (i := 16) h, Nat.shiftLeft_eq]

/-- The coordinates of a sprite's pixels are small: a row has 8 columns and a sprite at most 15 rows. -/
theorem spriteAt_lt {s : State} {x y : Reg} {n px py : Nat} (hn : n ≤ 15) (h : s.spriteAt x y n px py) :
    px < 65536 ∧ py < 65536 := by
  obtain ⟨r, c, hr, ⟨hc, -⟩, rfl, rfl⟩ := h
  have := (s.getV x).isLt
  have := (s.getV y).isLt
  omega

/-- The raise of R204 gives the state it describes. -/
theorem faultedAs_raise {i : Instr} {c : Cause} {info : Nat} {s : State} (h : info < 2 ^ 32) :
    FaultedAs i c info s (raise i c info s) where
  v _ := rfl
  index := rfl
  pc := rfl
  stack := ⟨rfl, fun _ => rfl⟩
  dt := rfl
  st := rfl
  fault := rfl
  fcause := rfl
  fpc := rfl
  fir := rfl
  finfo := finfo_raise_of_lt h
  mem _ := rfl
  sink := rfl
  keyIn := rfl
  rndIn := rfl
  cycle := rfl

/-- A fault after some toggles is the same fault: the draw's effect is outside the core (R148). -/
theorem faultedAs_of_show {i : Instr} {c : Cause} {info : Nat} {s t : State} {d : Canvas}
    (h : FaultedAs i c info (s.show d) t) : FaultedAs i c info s t where
  v y := by simpa using h.v y
  index := by simpa using h.index
  pc := by simpa using h.pc
  stack := by simpa [KeepsStack] using h.stack
  dt := by simpa using h.dt
  st := by simpa using h.st
  fault := h.fault
  fcause := h.fcause
  fpc := by simpa using h.fpc
  fir := h.fir
  finfo := h.finfo
  mem a := by simpa using h.mem a
  sink := by simpa using h.sink
  keyIn := by simpa using h.keyIn
  rndIn := by simpa using h.rndIn
  cycle := by simpa using h.cycle

/-- An instruction completes with the record as it was, or it has faulted and the state left shows why. -/
theorem ExecEffect.completes_or_faulted {i : Instr} {s t : State} (hw : i.wellFormed = true)
    (h : ExecEffect i s t) :
    t.faultRec = s.faultRec ∨ ((∃ c info, FaultedAs i c info s t) ∧ FaultCondition t i) := by
  cases h with
  | raised c info hinfo hc => exact .inr ⟨⟨c, info, faultedAs_raise hinfo⟩, hc⟩
  | drawStopped x y n c px py hi hm hk hp hg =>
    subst hi
    obtain ⟨hx, hy⟩ := spriteAt_lt (of_decide_eq_true hw) hp
    have hlt : pixelInfo px py < 2 ^ 32 := by rw [pixelInfo_eq hx]; omega
    refine .inr ⟨⟨_, _, faultedAs_of_show (faultedAs_raise hlt)⟩, .inr ⟨rfl, ?_, ?_, px, py, ?_, hg, ?_⟩⟩
    · simpa [raise, State.spriteInMemory] using hm
    · simpa [raise] using hk
    · simpa [raise, State.spriteAt, State.bitSet] using hp
    · rw [finfo_raise_of_lt hlt, pixelInfo_eq hx]
  | _ => exact .inl (by simp)

/-! ### The end of a cycle writes only `DT` and the inputs (R87) -/

@[simp] theorem endCycle_v (t : State) : t.endCycle.v = t.v := by unfold State.endCycle; split <;> rfl
@[simp] theorem endCycle_index (t : State) : t.endCycle.index = t.index := by unfold State.endCycle; split <;> rfl
@[simp] theorem endCycle_pc (t : State) : t.endCycle.pc = t.pc := by unfold State.endCycle; split <;> rfl
@[simp] theorem endCycle_sp (t : State) : t.endCycle.sp = t.sp := by unfold State.endCycle; split <;> rfl
@[simp] theorem endCycle_stack (t : State) : t.endCycle.stack = t.stack := by unfold State.endCycle; split <;> rfl
@[simp] theorem endCycle_st (t : State) : t.endCycle.st = t.st := by unfold State.endCycle; split <;> rfl
@[simp] theorem endCycle_faultRec (t : State) : t.endCycle.faultRec = t.faultRec := by unfold State.endCycle; split <;> rfl
@[simp] theorem endCycle_mem (t : State) : t.endCycle.mem = t.mem := by unfold State.endCycle; split <;> rfl
@[simp] theorem endCycle_fb (t : State) : t.endCycle.fb = t.fb := by unfold State.endCycle; split <;> rfl
@[simp] theorem endCycle_sink (t : State) : t.endCycle.sink = t.sink := by unfold State.endCycle; split <;> rfl
@[simp] theorem endCycle_rndIn (t : State) : t.endCycle.rndIn = t.rndIn := by unfold State.endCycle; split <;> rfl
@[simp] theorem endCycle_events (t : State) : t.endCycle.events = t.events := by unfold State.endCycle; split <;> rfl

@[simp] theorem endCycle_getV (t : State) (y : Reg) : t.endCycle.getV y = t.getV y := getV_congr (endCycle_v t) y
@[simp] theorem endCycle_slot (t : State) (k : BitVec 4) : t.endCycle.slot k = t.slot k :=
  slot_congr (endCycle_stack t) k

/-! ### Parts of the invariant under an instruction (R14, R16, R17) -/

/-- The part of the invariant that speaks of `SP` and the slots. -/
structure StackInv (s : State) : Prop where
  slotZero : s.slot 0 = 0
  slots : ∀ k, s.slot k = 0 ∨ (2 ≤ (s.slot k).toNat ∧ (s.slot k).toNat ≤ 0x1000)
  called : ∀ k, 0 < k.toNat → k.toNat ≤ s.sp.toNat → s.slot k ≠ 0

theorem Inv.stackInv {s : State} (h : Inv s) : StackInv s := ⟨h.slotZero, h.slots, h.called⟩

/-- The invariant from its parts. -/
theorem StackInv.inv {t : State} (h : StackInv t) (mem : t.mem.wf) (pc : t.pc.toNat ≤ 0x1002) (st : t.st = 0)
    (clear : t.faulted = false → t.faultRec = FaultRecord.clear) (explains : t.faulted = true → RecordExplains t) :
    Inv t :=
  ⟨mem, pc, st, h.slotZero, h.slots, h.called, clear, explains⟩

theorem StackInv.congr {s t : State} (h : StackInv s) (hsp : t.sp = s.sp) (hst : t.stack = s.stack) :
    StackInv t where
  slotZero := by rw [slot_congr hst, h.slotZero]
  slots k := by rw [slot_congr hst]; exact h.slots k
  called k := by rw [slot_congr hst, hsp]; exact h.called k

/-- A call below the top puts a return address in a slot that is not slot 0. -/
theorem StackInv.push {s : State} {w : Word} (h : StackInv s) (hsp : s.sp ≠ 15) (hw : 2 ≤ w.toNat)
    (hw' : w.toNat ≤ 0x1000) : StackInv (s.push w) := by
  have hne : s.sp.toNat ≠ 15 := fun h => hsp (BitVec.eq_of_toNat_eq h)
  have hsucc : (s.sp + 1).toNat = s.sp.toNat + 1 := by bv_omega
  refine ⟨?_, fun k => ?_, fun k hk hk' => ?_⟩
  · rw [slot_push, if_neg (by bv_omega), h.slotZero]
  · rw [slot_push]
    split
    · exact .inr ⟨hw, hw'⟩
    · exact h.slots k
  · rw [slot_push]
    split
    · bv_omega
    · refine h.called k hk ?_
      rw [push_sp] at hk'
      bv_omega

/-- A return leaves the slots and makes one call fewer outstanding. -/
theorem StackInv.popPc {s : State} (h : StackInv s) (hsp : s.sp ≠ 0) : StackInv s.popPc := by
  refine ⟨h.slotZero, h.slots, fun k hk hk' => h.called k hk ?_⟩
  rw [popPc_sp] at hk'
  bv_omega

/-- Every instruction keeps the stack's part, when `PC` is a return address (R101, R103). -/
theorem ExecEffect.stackInv {i : Instr} {s t : State} (h : ExecEffect i s t) (hs : StackInv s)
    (hpc : 2 ≤ s.pc.toNat) (hpc' : s.pc.toNat ≤ 0x1000) : StackInv t := by
  cases h with
  | called nnn hi hsp => exact (hs.push hsp hpc hpc').congr rfl rfl
  | returned hi hsp => exact hs.popPc hsp
  | _ => exact hs.congr (by simp [raise]) (by simp [raise])

/-- An instruction at most skips one word, jumps to 12 bits, or returns to a return address (R14). -/
theorem ExecEffect.pc_le {i : Instr} {s t : State} (h : ExecEffect i s t) (hs : StackInv s)
    (hpc : 2 ≤ s.pc.toNat) (hpc' : s.pc.toNat ≤ 0x1000) : t.pc.toNat ≤ 0x1002 := by
  have hz (nnn : Addr) : (zextAddr nnn).toNat ≤ 0x1002 := by
    have := nnn.isLt
    simp only [zextAddr, BitVec.zeroExtend, BitVec.toNat_setWidth]; omega
  cases h with
  | raised | drawStopped => simp only [raise, raiseAt_pc, show_pc]; bv_omega
  | jumped nnn | called nnn => exact hz nnn
  | skipped b =>
    rw [skipIf_pc]
    split
    · bv_omega
    · omega
  | returned hi hsp =>
    rw [popPc_pc]
    rcases hs.slots s.sp with h0 | ⟨-, hle⟩
    · simp [h0]
    · omega
  | _ => simp; omega

/-! ### The invariant under a step -/

/-- The word fetched depends on memory and `PC` alone (R45). -/
theorem fetchWord_congr {s t : State} (hm : t.mem = s.mem) (hp : t.pc = s.pc) : t.fetchWord = s.fetchWord := by
  simp only [State.fetchWord, hm, hp]

theorem inv_fetchFault {s : State} (hs : Inv s) (hp : 0x0FFE < s.pc.toNat) : Inv (fetchFault s) := by
  have hinfo : (fetchFault s).faultRec.finfo.toNat = s.pc.toNat := by
    have := s.pc.isLt
    simp only [fetchFault, raiseAt_faultRec, BitVec.toNat_ofNat]; omega
  have hstack : StackInv (fetchFault s) := hs.stackInv.congr rfl rfl
  exact hstack.inv hs.mem hs.pc hs.st (fun h => absurd h.symm Bool.false_ne_true)
    fun _ => ⟨rfl, .inl ⟨rfl, hp, rfl, hinfo⟩⟩

theorem inv_unrecognised {s : State} (hs : Inv s) (hf : s.faultRec.fault = false) (hp : s.pc.toNat ≤ 0x0FFE) :
    Inv (execUnrecognised s.fetchWord s.advance).endCycle := by
  have hok : (execUnrecognised s.fetchWord s.advance).faultRec.fault = false := hf
  have hpc : (s.pc + 2).toNat ≤ 0x1002 := by bv_omega
  have hstack : StackInv (execUnrecognised s.fetchWord s.advance).tick := hs.stackInv.congr rfl rfl
  rw [endCycle_of_ok hok]
  exact hstack.inv hs.mem hpc hs.st (fun _ => hs.clear hf)
    fun h => absurd (hok.symm.trans h) Bool.false_ne_true

theorem inv_exec {s u : State} {i : Instr} (hs : Inv s) (hf : s.faultRec.fault = false) (hp : s.pc.toNat ≤ 0x0FFE)
    (hd : decodeWord s.fetchWord = some i) (he : exec i s.advance = .next u) : Inv u.endCycle := by
  obtain ⟨hmem, hst, -⟩ := exec_keeps he
  have heff := exec_effect he
  obtain ⟨hencode, hw⟩ := encode_eq_and_wellFormed_of_decodeWord hd
  have hpc : 2 ≤ s.advance.pc.toNat := by rw [advance_pc]; bv_omega
  have hpc' : s.advance.pc.toNat ≤ 0x1000 := by rw [advance_pc]; bv_omega
  have hadv : StackInv s.advance := hs.stackInv.congr rfl rfl
  have hstack := heff.stackInv hadv hpc hpc'
  have hle := heff.pc_le hadv hpc hpc'
  rcases heff.completes_or_faulted hw with hrec | ⟨⟨c, info, hfault⟩, hcond⟩
  · have hok : u.faultRec.fault = false := hrec ▸ hf
    have hstack' : StackInv u.tick := hstack.congr rfl rfl
    rw [endCycle_of_ok hok]
    exact hstack'.inv (hmem ▸ hs.mem) hle (hst.trans hs.st) (fun _ => hrec.trans (hs.clear hf))
      fun h => absurd (hok.symm.trans h) Bool.false_ne_true
  · have hback : u.pc = s.pc := by rw [hfault.pc, advance_pc, BitVec.add_sub_cancel]
    have hfetch : u.fetchWord = s.fetchWord := fetchWord_congr hmem hback
    have hfir : u.faultRec.fir = u.fetchWord := by rw [hfault.fir, hencode, hfetch]
    rw [endCycle_of_faulted hfault.fault]
    exact hstack.inv (hmem ▸ hs.mem) hle (hst.trans hs.st)
      (fun h => absurd (h.symm.trans hfault.fault) Bool.false_ne_true)
      fun _ => ⟨hfault.fpc.trans hfault.pc.symm, .inr ⟨hback ▸ hp, hfir, i, hfetch ▸ hd, hcond⟩⟩

/-- Settles O55: along the four kinds of step, each part of the invariant by its own lemma about what an instruction can
answer. -/
theorem stepKeepsInvariant : Obligations.StepKeepsInvariant := by
  intro s t hs h
  rcases step_cases h with ⟨-, rfl⟩ | ⟨-, hp, rfl⟩ | ⟨hf, hp, -, rfl⟩ | ⟨i, u, hf, hp, hd, he, rfl⟩
  · exact hs
  · exact inv_fetchFault hs hp
  · exact inv_unrecognised hs hf hp
  · exact inv_exec hs hf hp hd he

/-! ### Reset and launch (R27, R224, R255, R256) -/

theorem reset_getV (x : Reg) : State.reset.getV x = 0 := by
  simp [State.getV, State.reset]

theorem reset_slot (k : BitVec 4) : State.reset.slot k = 0 := by
  simp [State.slot, State.reset]

theorem reset_pixel (px py : Nat) : State.reset.fb.pixel px py = false := by
  unfold Display.pixel
  split
  · simp [State.reset]
  · rfl

/-- Nothing is presumed of memory above the font (R27, R256). -/
theorem Memory.unlisted_of_font_le {a : Nat} (h : 0x50 ≤ a) : Memory.unlisted a = 0 :=
  List.getD_eq_default _ _ h

/-- Settles O5. Every scalar element is its reset value by definition; vectors and memory by the lemmas above. -/
theorem resetValues : Obligations.ResetValues :=
  ⟨reset_getV, rfl, rfl, rfl, reset_slot, rfl, rfl, rfl, fun _ ha _ => Memory.unlisted_of_font_le ha, reset_pixel⟩

/-- Settles O53: all slots are zero, no call is outstanding and no fault is recorded. -/
theorem resetMeetsInvariant : Obligations.ResetMeetsInvariant where
  mem := reset_mem_wf
  pc := by decide
  st := rfl
  slotZero := reset_slot 0
  slots k := .inl (reset_slot k)
  called k hk hsp := absurd hsp (Nat.not_le.2 hk)
  clear _ := rfl
  explains h := absurd h Bool.false_ne_true

/-- What memory at launch reads at each address: the program where it was loaded, else the font, else what nothing
loaded reads as. -/
theorem read_launch {font program : List Byte} (hf : font.length = 80) (hp : program.length ≤ 3584) (a : Nat) :
    (launch font program).mem.read a =
      if 0x200 ≤ a ∧ a < 0x200 + program.length then program.getD (a - 0x200) 0
      else if a < 80 then font.getD a 0 else Memory.unlisted a := by
  have hfont : 0 + font.length ≤ Config.memSize := by rw [hf]; decide
  have hprog : Config.loadAddr + program.length ≤ Config.memSize := by
    simp only [Config.loadAddr, Config.memSize]; omega
  have hwf : (Memory.load [] 0 font).wf := Memory.load_wf font Memory.nil_wf 0
  rw [launch, Memory.launch, Memory.read_load program hwf hprog, Memory.read_load font Memory.nil_wf hfont]
  simp only [Config.loadAddr, hf, Nat.zero_le, true_and, Nat.zero_add, Nat.sub_zero, Memory.read_nil]

/-- Settles O6, region by region of what a launch image reads as. -/
theorem launchMemory : Obligations.LaunchMemory := by
  intro font program hf hp
  refine ⟨fun a ha => ?_, fun a hlo hhi => ?_, fun k hk => ?_, fun a hlo _ => ?_, rfl⟩ <;> rw [read_launch hf hp]
  · rw [if_neg (by omega), if_pos ha]
  · rw [if_neg (by omega), if_neg (by omega), Memory.unlisted_of_font_le hlo]
  · rw [if_pos (by omega), Nat.add_sub_cancel_left]
  · rw [if_neg (by omega), if_neg (by omega), Memory.unlisted_of_font_le (by omega)]

/-! ### The sound timer (R18) -/

/-- Another value in `ST`. -/
def State.setSt (s : State) (b : Byte) : State := { s with st := b }

@[simp] theorem setSt_faultRec (s : State) (b : Byte) : (s.setSt b).faultRec = s.faultRec := rfl
@[simp] theorem setSt_fetchWord (s : State) (b : Byte) : (s.setSt b).fetchWord = s.fetchWord := rfl
@[simp] theorem setSt_fetchOutOfRange (s : State) (b : Byte) :
    (s.setSt b).fetchOutOfRange = s.fetchOutOfRange := rfl
@[simp] theorem setSt_advance (s : State) (b : Byte) : (s.setSt b).advance = s.advance.setSt b := rfl
@[simp] theorem setSt_fb (s : State) (b : Byte) : (s.setSt b).fb = s.fb := rfl
@[simp] theorem setSt_sink (s : State) (b : Byte) : (s.setSt b).sink = s.sink := rfl
@[simp] theorem setSt_getV (s : State) (b : Byte) (x : Reg) : (s.setSt b).getV x = s.getV x := rfl
@[simp] theorem setSt_spriteOutOfRange (s : State) (b : Byte) (n : Nat) :
    (s.setSt b).spriteOutOfRange n = s.spriteOutOfRange n := rfl
@[simp] theorem setSt_drawPixels (s : State) (b : Byte) (x y : Reg) (n : Nat) :
    (s.setSt b).drawPixels x y n = s.drawPixels x y n := rfl

@[simp] theorem setSt_show (s : State) (b : Byte) (c : Canvas) : (s.setSt b).show c = (s.show c).setSt b := by
  unfold State.show; split <;> rfl

@[simp] theorem setSt_skipIf (s : State) (b : Byte) (c : Bool) : (s.setSt b).skipIf c = (s.skipIf c).setSt b := by
  unfold State.skipIf; split <;> rfl

theorem endCycle_setSt (s : State) (b : Byte) : (s.setSt b).endCycle = s.endCycle.setSt b :=
  (apply_ite (State.setSt · b) (s.faultRec.fault = true) s s.tick).symm

/-- The same answer with another value in `ST`. -/
def withSt (b : Byte) : Result → Result
  | .next t => .next (t.setSt b)
  | .fault r => .fault r
  | .refused r => .refused r

theorem finish_withSt (b : Byte) (r : Result) : finish (withSt b r) = withSt b (finish r) := by
  cases r with
  | next t => exact congrArg Host.Outcome.next (endCycle_setSt t b)
  | fault | refused => rfl

theorem execDrw_setSt (x y : Reg) (n : Nat) (s : State) (b : Byte) :
    execDrw x y n (s.setSt b) = withSt b (execDrw x y n s) := by
  simp only [execDrw, setSt_spriteOutOfRange, setSt_sink, setSt_drawPixels, setSt_fb, setSt_show]
  split
  · rfl
  · split <;> rfl

/-- No instruction reads `ST`. -/
theorem exec_setSt (i : Instr) (s : State) (b : Byte) : exec i (s.setSt b) = withSt b (exec i s) := by
  cases i with
  | ret => simp only [exec, execRet, apply_ite (withSt b)]; rfl
  | call nnn => simp only [exec, execCall, apply_ite (withSt b)]; rfl
  | seVxNn x nn => simp only [exec, execSeVxNn, setSt_getV, setSt_skipIf, withSt]
  | sneVxNn x nn => simp only [exec, execSneVxNn, setSt_getV, setSt_skipIf, withSt]
  | se9VxVy x y => simp only [exec, execSe9VxVy, setSt_getV, setSt_skipIf, withSt]
  | drw x y n => exact execDrw_setSt x y n s b
  | skp x => simp only [exec, execSkp, setSt_skipIf, apply_ite (withSt b)]; rfl
  | sknp x => simp only [exec, execSknp, setSt_skipIf, apply_ite (withSt b)]; rfl
  | addIVx x => simp only [exec, execAddIVx, apply_ite (withSt b)]; rfl
  | _ => rfl

/-- No step reads `ST`: fetch, instruction and end of the cycle are the same with another value in it. -/
theorem step_setSt (s : State) (b : Byte) : step (s.setSt b) = withSt b (step s) := by
  simp only [step, setSt_faultRec, setSt_fetchOutOfRange, setSt_fetchWord, setSt_advance, exec_setSt, finish_withSt]
  split
  · rfl
  · split
    · rfl
    · split
      · exact finish_withSt b (.next (execUnrecognised s.fetchWord s.advance))
      · rfl

/-- No step writes `ST` (R18). -/
theorem step_st {s t : State} (h : step s = .next t) : t.st = s.st := by
  rcases step_cases h with ⟨-, rfl⟩ | ⟨-, -, rfl⟩ | ⟨-, -, -, rfl⟩ | ⟨i, u, -, -, -, he, rfl⟩
  · rfl
  · rfl
  · rw [endCycle_st]; rfl
  · obtain ⟨-, hst, -⟩ := exec_keeps he
    rw [endCycle_st, hst]; rfl

/-- Settles O23: the step commutes with another value in `ST`. -/
theorem soundTimerIsDead : Obligations.SoundTimerIsDead :=
  ⟨rfl, fun s _ h => ⟨step_st h, fun b => (step_setSt s b).trans (congrArg (withSt b) h)⟩⟩

/-! ### Who writes what (R10, R12, R15, R24, R126) -/

/-- Of a step, either an instruction answered, or nothing that only instructions write has changed. -/
theorem step_execEffect_or_keeps {s t : State} (h : step s = .next t) :
    (∃ i u, decodeWord s.fetchWord = some i ∧ ExecEffect i s.advance u ∧ t = u.endCycle) ∨
    (t.v = s.v ∧ t.index = s.index ∧ t.sp = s.sp ∧ t.stack = s.stack ∧ t.fb = s.fb ∧ t.rndIn = s.rndIn) := by
  rcases step_cases h with ⟨-, rfl⟩ | ⟨-, -, rfl⟩ | ⟨-, -, -, rfl⟩ | ⟨i, u, -, -, hd, he, rfl⟩
  · exact .inr (by simp)
  · exact .inr (by simp [fetchFault])
  · exact .inr (by simp [execUnrecognised])
  · exact .inl ⟨i, u, hd, exec_effect he, rfl⟩

section
/-! Field by field: an instruction that changes it is one of its owners. -/
variable {i : Instr} {s t : State}

theorem ExecEffect.getV_or (h : ExecEffect i s t) (y : Reg) :
    t.getV y = s.getV y ∨ LoadsReg y i ∨ (∃ nn, i = .rndVxNn y nn) ∨ (y = 15 ∧ ∃ a b n, i = .drw a b n) := by
  cases h with
  | loaded x b hi =>
    by_cases hxy : x = y
    · exact .inr (.inl (hxy ▸ hi))
    · exact .inl (by rw [getV_setV, if_neg hxy])
  | randomLoaded x nn b hi =>
    by_cases hxy : x = y
    · exact .inr (.inr (.inl ⟨nn, hxy ▸ hi⟩))
    · exact .inl (by rw [getV_setV, if_neg hxy, getV_takeRnd])
  | drawn a b n c hi =>
    by_cases hy : flagReg = y
    · exact .inr (.inr (.inr ⟨hy.symm, a, b, n, hi⟩))
    · exact .inl (by rw [getV_setV, if_neg hy, getV_show])
  | _ => exact .inl (by simp [raise])

theorem ExecEffect.index_or (h : ExecEffect i s t) :
    t.index = s.index ∨ (∃ nnn, i = .ldINnn nnn) ∨ ∃ x, i = .addIVx x := by
  cases h with
  | indexSet w hi => exact .inr hi
  | _ => exact .inl (by simp [raise])

theorem ExecEffect.sp_or (h : ExecEffect i s t) : t.sp = s.sp ∨ (∃ nnn, i = .call nnn) ∨ i = .ret := by
  cases h with
  | called nnn hi => exact .inr (.inl ⟨nnn, hi⟩)
  | returned hi => exact .inr (.inr hi)
  | _ => exact .inl (by simp [raise])

theorem ExecEffect.stack_or (h : ExecEffect i s t) : t.stack = s.stack ∨ ∃ nnn, i = .call nnn := by
  cases h with
  | called nnn hi => exact .inr ⟨nnn, hi⟩
  | _ => exact .inl (by simp [raise])

theorem ExecEffect.fb_or (h : ExecEffect i s t) : t.fb = s.fb ∨ ∃ x y n, i = .drw x y n := by
  cases h with
  | drawStopped x y n c px py hi => exact .inr ⟨x, y, n, hi⟩
  | drawn x y n c hi => exact .inr ⟨x, y, n, hi⟩
  | _ => exact .inl (by simp [raise])

theorem ExecEffect.rndIn_or (h : ExecEffect i s t) : t.rndIn = s.rndIn ∨ ∃ x nn, i = .rndVxNn x nn := by
  cases h with
  | randomLoaded x nn b hi => exact .inr ⟨x, nn, hi⟩
  | _ => exact .inl (by simp [raise])

end

/-- Settles O24: the instruction that answered has the register as its destination, or nothing changed it. -/
theorem onlyDestinationRegisterChanges : Obligations.OnlyDestinationRegisterChanges := by
  intro s t y h hne
  rcases step_execEffect_or_keeps h with ⟨i, u, hd, heff, rfl⟩ | ⟨hv, -⟩
  · rcases heff.getV_or y with hsame | (hnn | hadd | hreg | hdt) | hrnd | hdrw
    · exact absurd (by rw [endCycle_getV, hsame, getV_advance]) hne
    · exact ⟨i, hd, .inl hnn⟩
    · exact ⟨i, hd, .inr (.inl hadd)⟩
    · exact ⟨i, hd, .inr (.inr (.inl hreg))⟩
    · exact ⟨i, hd, .inr (.inr (.inr (.inr (.inl hdt))))⟩
    · exact ⟨i, hd, .inr (.inr (.inr (.inl hrnd)))⟩
    · exact ⟨i, hd, .inr (.inr (.inr (.inr (.inr hdrw))))⟩
  · exact absurd (getV_congr hv y) hne

/-- Settles O25: field by field, the owner of the field or no change. -/
theorem onlyOwnersWrite : Obligations.OnlyOwnersWrite := by
  intro s t h
  rcases step_execEffect_or_keeps h with ⟨i, u, hd, heff, rfl⟩ | ⟨-, hindex, hsp, hstack, hfb, hrnd⟩
  · refine ⟨fun hne => ⟨i, hd, heff.index_or.resolve_left (by simpa using hne)⟩,
      fun hne => ⟨i, hd, heff.sp_or.resolve_left (by simpa using hne)⟩, fun ⟨k, hne⟩ => ?_, fun hne => ?_, fun hne => ?_⟩
    · obtain ⟨nnn, rfl⟩ := heff.stack_or.resolve_left fun hs => hne (by rw [endCycle_slot, slot_congr hs, slot_advance])
      exact ⟨nnn, hd⟩
    · obtain ⟨x, y, n, rfl⟩ := heff.fb_or.resolve_left fun hs => hne fun _ _ _ _ => by rw [endCycle_fb, hs, advance_fb]
      exact ⟨x, y, n, hd⟩
    · obtain ⟨x, nn, rfl⟩ := heff.rndIn_or.resolve_left (by simpa using hne)
      exact ⟨x, nn, hd⟩
  · exact ⟨fun hne => absurd hindex hne, fun hne => absurd hsp hne, fun ⟨k, hne⟩ => absurd (slot_congr hstack k) hne,
      fun hne => absurd (fun _ _ _ _ => by rw [hfb]) hne, fun hne => absurd hrnd hne⟩

end Sys2Proof.Machine

/-! PROOF. The memory family (spec/20_memory.md): byte order, a word placed and fetched, and who writes memory. -/

namespace Sys2Proof

/-- All 16 bits of a word are the word. -/
theorem tableWord_toNat (w : Word) : tableWord 16 w.toNat = w := by
  rw [tableWord, Nat.mod_eq_of_lt w.isLt, BitVec.ofNat_toNat, BitVec.setWidth_eq]

/-- Two bytes decode to what their word decodes to (R60). -/
theorem decodeTableWord_eq (nbits w : Nat) : decodeTableWord nbits w = decodeWord (tableWord nbits w) := by
  simp only [decodeTableWord, decode, wordOfBytes_highByte_lowByte]
  cases decodeWord (tableWord nbits w) with
  | none => rfl
  | some i => rfl

end Sys2Proof

namespace Sys2Proof.Machine

/-- Settles O10: the value of two bytes put together. -/
theorem fetchIsBigEndian : Obligations.FetchIsBigEndian :=
  fun _ => wordOfBytes_toNat _ _

/-- The two loaded bytes lie where the fetch reads them, so it puts the word together again (R45). -/
theorem fetchWord_withFetchWord {s : State} (hs : s.mem.wf) (hp : s.pc.toNat ≤ 0x0FFE) (nbits w : Nat) :
    (s.withFetchWord nbits w).fetchWord = tableWord nbits w := by
  have hfit : s.pc.toNat + [highByte (tableWord nbits w), lowByte (tableWord nbits w)].length ≤ Config.memSize := by
    simp only [List.length_cons, List.length_nil, Config.memSize]; omega
  have hhigh : (s.withFetchWord nbits w).mem.read s.pc.toNat = highByte (tableWord nbits w) := by
    simp [State.withFetchWord, Memory.read_load _ hs hfit]
  have hlow : (s.withFetchWord nbits w).mem.read (s.pc.toNat + 1) = lowByte (tableWord nbits w) := by
    simp [State.withFetchWord, Memory.read_load _ hs hfit]
  calc (s.withFetchWord nbits w).fetchWord
      = wordOfBytes (highByte (tableWord nbits w)) (lowByte (tableWord nbits w)) := congrArg₂ wordOfBytes hhigh hlow
    _ = tableWord nbits w := wordOfBytes_highByte_lowByte _

/-- Settles O11: both the fetch and the decoder put the two bytes of the word together again. -/
theorem placedWordIsFetched : Obligations.PlacedWordIsFetched := by
  intro s w hs hp
  rw [fetchWord_withFetchWord hs hp, decodeTableWord_eq, tableWord_toNat]
  exact ⟨rfl, rfl⟩

/-- No step writes memory (R43). -/
theorem step_mem {s t : State} (h : step s = .next t) : t.mem = s.mem := by
  rcases step_cases h with ⟨-, rfl⟩ | ⟨-, -, rfl⟩ | ⟨-, -, -, rfl⟩ | ⟨i, u, -, -, -, he, rfl⟩
  · rfl
  · rfl
  · rw [endCycle_mem]; rfl
  · obtain ⟨hmem, -⟩ := exec_keeps he
    rw [endCycle_mem, hmem, advance_mem]

/-- Settles O22: the list of cells stays the same, so every address reads as before. -/
theorem memoryIsNeverWritten : Obligations.MemoryIsNeverWritten :=
  fun _ _ h a => congrArg (Memory.read · a) (step_mem h)

end Sys2Proof.Machine

/-! PROOF. The encoding family (spec/30_encoding.md): the encoder and the decoder are inverse, the decoder is the opcode
table, and every step has a next state. -/

namespace Sys2Proof

/-! ### Decoding an encoding (R60, R61, R63) -/

/-- The decoder undoes the encoder, format by format: it reads from an assembled word the fields it was made of. -/
theorem decodeWord_encode {i : Instr} (hw : i.wellFormed = true) : decodeWord (encode i) = some i := by
  cases i with
  | ret => rfl
  | jp nnn | call nnn | ldINnn nnn => simp [encode, decodeWord, fieldOp_wordNNN, fieldNNN_wordNNN]
  | seVxNn x nn | sneVxNn x nn | ldVxNn x nn | addVxNn x nn | rndVxNn x nn | skp x | sknp x | ldVxDt x
  | ldDtVx x | addIVx x =>
    simp [encode, decodeWord, fieldOp_wordXNN, fieldX_wordXNN, fieldNN_wordXNN]
  | ldVxVy x y | se9VxVy x y =>
    simp [encode, decodeWord, fieldOp_wordXYN, fieldX_wordXYN, fieldY_wordXYN, fieldN_wordXYN]
  | drw x y n =>
    have hn : n ≤ 15 := of_decide_eq_true hw
    have hmod : n % 16 = n := Nat.mod_eq_of_lt (by omega)
    simp [encode, decodeWord, fieldOp_wordXYN, fieldX_wordXYN, fieldY_wordXYN, fieldN_wordXYN, hmod]

/-- The two bytes of an instruction decode to what its word decodes to, whatever follows them. -/
theorem decode_encodeBytes_append {i : Instr} (hw : i.wellFormed = true) (rest : List Byte) :
    decode (encodeBytes i ++ rest) = .ok (i, rest) := by
  simp only [encodeBytes, List.cons_append, List.nil_append, decode, wordOfBytes_highByte_lowByte,
    decodeWord_encode hw]

/-! ### A word that matches a row (R63) -/

section
/-! What a match under one of the masks says of the fields. -/
variable {w p : Word} {op : BitVec 4}

theorem fieldOp_of_and_F000 (h : w &&& 0xF000 = p) : fieldOp w = fieldOp p :=
  BitVec.eq_of_toNat_eq (by rw [fieldOp_toNat, fieldOp_toNat, ← h, and_F000_toNat]; omega)

theorem fieldOp_of_and_F00F (h : w &&& 0xF00F = p) : fieldOp w = fieldOp p :=
  BitVec.eq_of_toNat_eq (by rw [fieldOp_toNat, fieldOp_toNat, ← h, and_F00F_toNat]; omega)

theorem fieldN_of_and_F00F (h : w &&& 0xF00F = p) : fieldN w = fieldN p := by
  rw [fieldN_eq, fieldN_eq, ← h, and_F00F_toNat]; omega

theorem fieldOp_of_and_F0FF (h : w &&& 0xF0FF = p) : fieldOp w = fieldOp p :=
  BitVec.eq_of_toNat_eq (by rw [fieldOp_toNat, fieldOp_toNat, ← h, and_F0FF_toNat]; omega)

theorem fieldNN_of_and_F0FF (h : w &&& 0xF0FF = p) : fieldNN w = fieldNN p :=
  BitVec.eq_of_toNat_eq (by rw [fieldNN_toNat, fieldNN_toNat, ← h, and_F0FF_toNat]; omega)

/-- With its first digit fixed, a word is that digit and its address. -/
theorem wordNNN_of_and_F000 (h : w &&& 0xF000 = p) (hop : fieldOp p = op) : wordNNN op (fieldNNN w) = w :=
  wordNNN_fields ((fieldOp_of_and_F000 h).trans hop)

/-- With its first digit fixed, a word is that digit, its register and its immediate. -/
theorem wordXNN_of_and_F000 (h : w &&& 0xF000 = p) (hop : fieldOp p = op) :
    wordXNN op (fieldX w) (fieldNN w) = w :=
  wordXNN_fields ((fieldOp_of_and_F000 h).trans hop)

/-- With its first and last digits fixed, a word is these and its two registers. -/
theorem wordXYN_of_and_F00F {n : Nat} (h : w &&& 0xF00F = p) (hop : fieldOp p = op) (hn : fieldN p = n) :
    wordXYN op (fieldX w) (fieldY w) n = w := by
  rw [← hn, ← fieldN_of_and_F00F h]; exact wordXYN_fields ((fieldOp_of_and_F00F h).trans hop)

/-- With its first digit and low byte fixed, a word is these and its register. -/
theorem wordXNN_of_and_F0FF {nn : Byte} (h : w &&& 0xF0FF = p) (hop : fieldOp p = op) (hnn : fieldNN p = nn) :
    wordXNN op (fieldX w) nn = w := by
  rw [← hnn, ← fieldNN_of_and_F0FF h]; exact wordXNN_fields ((fieldOp_of_and_F0FF h).trans hop)

end

/-- A word that matches a row is the encoding of an instruction of that row, with the word's own fields as operands. -/
theorem exists_encode_of_matches_row {w : Word} (i : Instr) (h : w &&& i.row.mask = i.row.pattern) :
    ∃ j : Instr, j.row = i.row ∧ j.wellFormed = true ∧ encode j = w := by
  cases i with
  | ret => exact ⟨.ret, rfl, rfl, h.symm.trans (and_FFFF w)⟩
  | jp => exact ⟨.jp (fieldNNN w), rfl, rfl, wordNNN_of_and_F000 (p := 0x1000) h (by decide)⟩
  | call => exact ⟨.call (fieldNNN w), rfl, rfl, wordNNN_of_and_F000 (p := 0x2000) h (by decide)⟩
  | ldINnn => exact ⟨.ldINnn (fieldNNN w), rfl, rfl, wordNNN_of_and_F000 (p := 0xA000) h (by decide)⟩
  | seVxNn => exact ⟨.seVxNn (fieldX w) (fieldNN w), rfl, rfl, wordXNN_of_and_F000 (p := 0x3000) h (by decide)⟩
  | sneVxNn => exact ⟨.sneVxNn (fieldX w) (fieldNN w), rfl, rfl, wordXNN_of_and_F000 (p := 0x4000) h (by decide)⟩
  | ldVxNn => exact ⟨.ldVxNn (fieldX w) (fieldNN w), rfl, rfl, wordXNN_of_and_F000 (p := 0x6000) h (by decide)⟩
  | addVxNn => exact ⟨.addVxNn (fieldX w) (fieldNN w), rfl, rfl, wordXNN_of_and_F000 (p := 0x7000) h (by decide)⟩
  | rndVxNn => exact ⟨.rndVxNn (fieldX w) (fieldNN w), rfl, rfl, wordXNN_of_and_F000 (p := 0xC000) h (by decide)⟩
  | ldVxVy =>
    exact ⟨.ldVxVy (fieldX w) (fieldY w), rfl, rfl, wordXYN_of_and_F00F (p := 0x8000) h (by decide) (by decide)⟩
  | se9VxVy =>
    exact ⟨.se9VxVy (fieldX w) (fieldY w), rfl, rfl, wordXYN_of_and_F00F (p := 0x9000) h (by decide) (by decide)⟩
  | skp => exact ⟨.skp (fieldX w), rfl, rfl, wordXNN_of_and_F0FF (p := 0xE09E) h (by decide) (by decide)⟩
  | sknp => exact ⟨.sknp (fieldX w), rfl, rfl, wordXNN_of_and_F0FF (p := 0xE0A1) h (by decide) (by decide)⟩
  | ldVxDt => exact ⟨.ldVxDt (fieldX w), rfl, rfl, wordXNN_of_and_F0FF (p := 0xF007) h (by decide) (by decide)⟩
  | ldDtVx => exact ⟨.ldDtVx (fieldX w), rfl, rfl, wordXNN_of_and_F0FF (p := 0xF015) h (by decide) (by decide)⟩
  | addIVx => exact ⟨.addIVx (fieldX w), rfl, rfl, wordXNN_of_and_F0FF (p := 0xF01E) h (by decide) (by decide)⟩
  | drw =>
    have hn : fieldN w ≤ 15 := by rw [fieldN_eq]; omega
    exact ⟨.drw (fieldX w) (fieldY w) (fieldN w), rfl, decide_eq_true hn,
      wordXYN_fields ((fieldOp_of_and_F000 (p := 0xD000) h).trans (by decide))⟩

/-! ### The decoder and the table (R63, R65) -/

/-- The word of every instruction matches its row, and the row is in the table. -/
theorem encode_matches_row (i : Instr) : Laws.EncodesInRow.Statement i := by
  cases i with
  | ret => exact Laws.EncodesInRow.ret
  | jp nnn => exact Laws.EncodesInRow.jp nnn
  | call nnn => exact Laws.EncodesInRow.call nnn
  | seVxNn x nn => exact Laws.EncodesInRow.seVxNn x nn
  | sneVxNn x nn => exact Laws.EncodesInRow.sneVxNn x nn
  | ldVxNn x nn => exact Laws.EncodesInRow.ldVxNn x nn
  | addVxNn x nn => exact Laws.EncodesInRow.addVxNn x nn
  | ldVxVy x y => exact Laws.EncodesInRow.ldVxVy x y
  | se9VxVy x y => exact Laws.EncodesInRow.se9VxVy x y
  | ldINnn nnn => exact Laws.EncodesInRow.ldINnn nnn
  | rndVxNn x nn => exact Laws.EncodesInRow.rndVxNn x nn
  | drw x y n => exact Laws.EncodesInRow.drw x y n
  | skp x => exact Laws.EncodesInRow.skp x
  | sknp x => exact Laws.EncodesInRow.sknp x
  | ldVxDt x => exact Laws.EncodesInRow.ldVxDt x
  | ldDtVx x => exact Laws.EncodesInRow.ldDtVx x
  | addIVx x => exact Laws.EncodesInRow.addIVx x

/-- A word that decodes matches the row of what it decodes to. -/
theorem matches_row_of_decodeWord {w : Word} {i : Instr} (h : decodeWord w = some i) :
    w &&& i.row.mask = i.row.pattern ∧ i.row ∈ opcodeTable := by
  obtain ⟨rfl, -⟩ := encode_eq_and_wellFormed_of_decodeWord h
  exact encode_matches_row i

/-- The rows of the table are rows of instructions. -/
theorem exists_row_eq_of_mem_opcodeTable {r : Row} (hr : r ∈ opcodeTable) : ∃ i : Instr, i.row = r := by
  have hmap : opcodeTable = [Instr.ret, .jp 0, .call 0, .seVxNn 0 0, .sneVxNn 0 0, .ldVxNn 0 0, .addVxNn 0 0,
      .ldVxVy 0 0, .se9VxVy 0 0, .ldINnn 0, .rndVxNn 0 0, .drw 0 0 0, .skp 0, .sknp 0, .ldVxDt 0, .ldDtVx 0,
      .addIVx 0].map Instr.row := rfl
  obtain ⟨i, -, hi⟩ := List.mem_map.1 (hmap ▸ hr)
  exact ⟨i, hi⟩

/-- A row's mask and pattern pick out exactly the words that decode to an instruction of the row. -/
theorem matches_row_iff_decodeWord (w : Word) {r : Row} (hr : r ∈ opcodeTable) :
    w &&& r.mask = r.pattern ↔ ∃ i, decodeWord w = some i ∧ i.row = r := by
  constructor
  · intro h
    obtain ⟨i, rfl⟩ := exists_row_eq_of_mem_opcodeTable hr
    obtain ⟨j, hrow, hw, rfl⟩ := exists_encode_of_matches_row i h
    exact ⟨j, decodeWord_encode hw, hrow⟩
  · rintro ⟨i, hd, rfl⟩
    obtain ⟨hmatch, -⟩ := matches_row_of_decodeWord hd
    exact hmatch

/-- Settles O2: the round trip on words, and the two bytes put together again. -/
theorem decodeOfEncode : Obligations.DecodeOfEncode :=
  fun _ hw => ⟨decodeWord_encode hw, decode_encodeBytes_append hw⟩

/-- Settles O3: each arm of the decoder reads every field its format has. -/
theorem encodeOfDecode : Obligations.EncodeOfDecode :=
  fun _ _ => encode_eq_and_wellFormed_of_decodeWord

/-- Settles O4. A row's words are those that decode into it; so rows are disjoint because the decoder is a function,
and a word outside every row decodes to nothing because what it decoded to would have a row. -/
theorem decoderIsOpcodeTable : Obligations.DecoderIsOpcodeTable := by
  refine ⟨fun w r hr => matches_row_iff_decodeWord w hr, fun w r hr r' hr' h h' => ?_,
    fun w => ⟨fun hnone r hr h => ?_, fun hall => ?_⟩⟩
  · obtain ⟨i, hd, rfl⟩ := (matches_row_iff_decodeWord w hr).1 h
    obtain ⟨j, hd', rfl⟩ := (matches_row_iff_decodeWord w hr').1 h'
    exact congrArg Instr.row (Option.some.inj (hd.symm.trans hd'))
  · obtain ⟨i, hd, -⟩ := (matches_row_iff_decodeWord w hr).1 h
    exact Option.some_ne_none i (hd.symm.trans hnone)
  · refine Option.eq_none_iff_forall_ne_some.2 fun i hd => ?_
    obtain ⟨hmatch, hmem⟩ := matches_row_of_decodeWord hd
    exact hall i.row hmem hmatch

/-- Settles O1: the vectors are closed words, which the decoder evaluates. -/
theorem vectorWordsDecode : Obligations.VectorWordsDecode :=
  ⟨by decide, by decide, by decide⟩

end Sys2Proof

namespace Sys2Proof.Machine

/-- Settles O16: the faulted core, the fetch fault and the unrecognised arm answer a state outright, and so does every
instruction. -/
theorem everyStepHasNextState : Obligations.EveryStepHasNextState := by
  intro s
  unfold step
  split
  · exact ⟨s, rfl⟩
  · split
    · exact ⟨fetchFault s, rfl⟩
    · split
      · exact ⟨(execUnrecognised s.fetchWord s.advance).endCycle, rfl⟩
      · rename_i i _
        obtain ⟨u, hu⟩ := exec_next i s.advance
        exact ⟨u.endCycle, by rw [hu]; rfl⟩

end Sys2Proof.Machine

/-! PROOF. The cycle family (spec/40_cycle.md): which arm a step takes, how a cycle ends, and runs of cycles. -/

namespace Sys2Proof

/-- Two bytes that decode to an instruction are a word that decodes to it (R60). -/
theorem decodeWord_of_decode {hi lo : Byte} {i : Instr} (h : decode [hi, lo] = .ok (i, [])) :
    decodeWord (wordOfBytes hi lo) = some i := by
  simp only [decode] at h
  cases hd : decodeWord (wordOfBytes hi lo) with
  | some j => rw [hd] at h; cases h; rfl
  | none => rw [hd] at h; cases h

end Sys2Proof

namespace Sys2Proof.Machine

/-! ### The arms of a step (R81 to R83, R86, R88) -/

section
variable {s : State}

theorem step_of_faulted (hf : s.faulted = true) : step s = .next s :=
  if_pos hf

theorem step_of_fetchOutOfRange (hf : s.faulted = false) (hp : 0x0FFE < s.pc.toNat) :
    step s = .next (fetchFault s) := by
  have hrange : s.fetchOutOfRange = true := decide_eq_true hp
  have hfault : s.faultRec.fault = false := hf
  simp [step, hfault, hrange]

theorem step_of_unrecognised (hf : s.faulted = false) (hp : s.pc.toNat ≤ 0x0FFE)
    (hd : decodeWord s.fetchWord = none) : step s = .next (execUnrecognised s.fetchWord s.advance).tick := by
  have hrange : s.fetchOutOfRange = false := decide_eq_false (Nat.not_lt.2 hp)
  have hfault : s.faultRec.fault = false := hf
  have hend : (execUnrecognised s.fetchWord s.advance).endCycle = (execUnrecognised s.fetchWord s.advance).tick :=
    endCycle_of_ok hf
  simp [step, hfault, hrange, hd, finish, hend]

/-- The record of a fetch fault, written out: `FCAUSE` 1, `FIR` 0, and `PC` twice (R81, R202). -/
theorem fetchFault_eq (s : State) :
    fetchFault s = { s with faultRec := ⟨true, 1, s.pc, 0, s.pc.zeroExtend 32⟩ } := by
  rw [fetchFault, raiseAt, BitVec.ofNat_toNat]
  rfl

/-- A fault puts `PC` back where the cycle began (R82, R204). -/
theorem advance_pc_sub_two (s : State) : s.advance.pc - 2 = s.pc :=
  BitVec.add_sub_cancel s.pc 2

end

/-- Settles O12: the step is `exec` at the advanced `PC`, ended as a cycle that faulted or as one that did not. -/
theorem stepRunsDecodedInstruction : Obligations.StepRunsDecodedInstruction := by
  intro s t i hf hp hd he
  have hstep : step s = .next t.endCycle := by
    rw [step_of_decode hf hp (decodeWord_of_decode hd)]
    exact congrArg finish he
  refine ⟨fun ht => ?_, fun ht => ⟨decrement t.dt, decrement_toNat t.dt, ?_⟩⟩
  · rw [hstep, endCycle_of_faulted ht]
  · rw [hstep, endCycle_of_ok ht]; rfl

/-- Settles O13: the arm signals the event, and the tick writes `DT`. -/
theorem unrecognisedWordIsIgnored : Obligations.UnrecognisedWordIsIgnored :=
  fun s hf hp hd => ⟨_, step_of_unrecognised hf hp hd, rfl, decrement_toNat s.dt, fun _ => rfl, rfl,
    ⟨rfl, fun _ => rfl⟩, rfl, rfl, fun _ => rfl, fun _ _ _ _ => rfl, rfl, rfl, rfl⟩

/-- Settles O14: the record written out; and two zero bytes are the word 0000, which is unrecognised. -/
theorem fetchOutOfRangeFaults : Obligations.FetchOutOfRangeFaults := by
  refine ⟨fun s hf hp => ?_, fun s hf hp hhi hlo => ?_⟩
  · rw [step_of_fetchOutOfRange hf hp, fetchFault_eq]
  · have hzero : s.fetchWord = 0 := by rw [State.fetchWord, hhi, hlo]; rfl
    have hd : decodeWord s.fetchWord = none := by rw [hzero]; decide
    exact ⟨_, step_of_unrecognised hf hp hd, hf, rfl⟩

/-! ### How a cycle ends -/

section
variable {s t : State}

/-- A cycle that does not fault ran the unrecognised arm or an instruction that completed, and ticked (R87). -/
theorem step_completes (hf : s.faulted = false) (h : step s = .next t) (ht : t.faulted = false) :
    (decodeWord s.fetchWord = none ∧ t = (execUnrecognised s.fetchWord s.advance).tick) ∨
    ∃ i u, decodeWord s.fetchWord = some i ∧ exec i s.advance = .next u ∧ t = u.tick := by
  rcases step_cases h with ⟨hf', -⟩ | ⟨-, -, rfl⟩ | ⟨-, -, hd, rfl⟩ | ⟨i, u, -, -, hd, he, rfl⟩
  · exact absurd (hf.symm.trans hf') Bool.false_ne_true
  · exact absurd ht.symm Bool.false_ne_true
  · exact .inl ⟨hd, endCycle_of_ok hf⟩
  · rw [State.faulted, endCycle_faultRec] at ht
    exact .inr ⟨i, u, hd, he, endCycle_of_ok ht⟩

/-- A cycle that faults had its fetch out of range, or its instruction raised a cause of R202 and its answer stands as
it is (R89). -/
theorem step_faults (hf : s.faulted = false) (h : step s = .next t) (ht : t.faulted = true) :
    (0x0FFE < s.pc.toNat ∧ t = fetchFault s) ∨
    ∃ i c info, s.pc.toNat ≤ 0x0FFE ∧ decodeWord s.fetchWord = some i ∧ exec i s.advance = .next t ∧
      FaultedAs i c info s.advance t ∧ FaultCondition t i := by
  rcases step_cases h with ⟨hf', -⟩ | ⟨-, hp, rfl⟩ | ⟨-, -, -, rfl⟩ | ⟨i, u, -, hp, hd, he, rfl⟩
  · exact absurd (hf.symm.trans hf') Bool.false_ne_true
  · exact .inl ⟨hp, rfl⟩
  · rw [State.faulted, endCycle_faultRec] at ht
    exact absurd (hf.symm.trans ht) Bool.false_ne_true
  · rw [State.faulted, endCycle_faultRec] at ht
    obtain ⟨-, hw⟩ := encode_eq_and_wellFormed_of_decodeWord hd
    rcases (exec_effect he).completes_or_faulted hw with hrec | ⟨⟨c, info, hfault⟩, hcond⟩
    · rw [hrec] at ht
      exact absurd (hf.symm.trans ht) Bool.false_ne_true
    · rw [endCycle_of_faulted ht]
      exact .inr ⟨i, c, info, hp, hd, he, hfault, hcond⟩

end

/-! ### Faults are precise (R89, R204, R205) -/

/-- No instruction raises `FETCH_RANGE` (R202). -/
theorem FaultCondition.fcause_ne_one {t : State} {i : Instr} (h : FaultCondition t i) : t.faultRec.fcause ≠ 1 := by
  cases i with
  | ret | call | skp | sknp | addIVx =>
    obtain ⟨hc, -⟩ := h
    rw [hc]; decide
  | drw =>
    rcases h with ⟨hc, -⟩ | ⟨hc, -⟩ <;> rw [hc] <;> decide
  | _ => exact h.elim

/-- A fault that is not `DISPLAY_RANGE` comes before any toggle (R143, R148, R205). -/
theorem ExecEffect.fb_of_faulted {i : Instr} {s t : State} (h : ExecEffect i s t) (hs : s.faultRec.fault = false)
    (ht : t.faultRec.fault = true) (hc : t.faultRec.fcause ≠ 7) : t.fb = s.fb := by
  cases h with
  | drawStopped => exact absurd rfl hc
  | drawn =>
    rw [setV_faultRec, show_faultRec] at ht
    exact absurd (hs.symm.trans ht) Bool.false_ne_true
  | _ => simp [raise]

/-- Settles O18: a fetch fault writes only the record, and an instruction that faulted left the state that R204
describes. -/
theorem faultsArePrecise : Obligations.FaultsArePrecise := by
  intro s t hf h ht
  rcases step_faults hf h ht with ⟨-, rfl⟩ | ⟨i, c, info, -, hd, he, hfault, hcond⟩
  · exact ⟨fun _ => rfl, rfl, rfl, ⟨rfl, fun _ => rfl⟩, rfl, rfl, fun _ => rfl, rfl, fun _ => rfl,
      fun hc => absurd rfl hc, fun _ _ _ _ _ => rfl⟩
  · obtain ⟨hencode, -⟩ := encode_eq_and_wellFormed_of_decodeWord hd
    have hpc : t.pc = s.pc := hfault.pc.trans (advance_pc_sub_two s)
    have hfpc : t.faultRec.fpc = s.pc := hfault.fpc.trans (advance_pc_sub_two s)
    have hpixels (hc : t.faultRec.fcause ≠ 7) : KeepsPixels s t := fun px py _ _ =>
      congrArg (Display.pixel · px py) ((exec_effect he).fb_of_faulted hf ht hc)
    exact ⟨hfault.v, hfault.index, hpc, hfault.stack, hfault.dt, hfault.st, hfault.mem, hfpc,
      fun hc => absurd hc hcond.fcause_ne_one, fun _ => hfault.fir.trans hencode, hpixels⟩

/-! ### The timer (R87) -/

/-- Only `FX15` writes `DT` during an instruction (R19, R172). -/
theorem exec_dt {i : Instr} {s t : State} (h : exec i s = .next t) (hi : ∀ x, i ≠ .ldDtVx x) : t.dt = s.dt := by
  cases i with
  | ldDtVx x => exact absurd rfl (hi x)
  | drw x y n =>
    rcases execDrw_cases x y n s with ⟨-, he⟩ | ⟨_, -, -, he⟩ | ⟨_, _, _, -, -, he⟩ <;>
      cases he.symm.trans h <;> simp [raise]
  | ret | call | skp | sknp | addIVx =>
    simp only [exec, execRet, execCall, execSkp, execSknp, execAddIVx] at h
    split at h <;> cases h <;> simp [raise]
  | _ => cases h; simp

/-- Settles O20: the tick takes one off the value the instruction left in `DT`, which is the old one unless `FX15`
wrote it. -/
theorem timerDecrementsOncePerCycle : Obligations.TimerDecrementsOncePerCycle := by
  intro s t hf h ht
  refine ⟨?_, fun x hx => ?_, step_st h⟩
  · rcases step_completes hf h ht with ⟨hd, rfl⟩ | ⟨i, u, hd, he, rfl⟩ <;> rw [hd, tick_dt, decrement_toNat]
    · rfl
    · split
      · rename_i x hi
        cases hi; cases he; rfl
      · rename_i hi
        rw [exec_dt he fun x hx => hi x (congrArg some hx), advance_dt]
  · rcases step_completes hf h ht with ⟨hd, -⟩ | ⟨i, u, hd, he, rfl⟩
    · cases hd.symm.trans hx
    · cases hd.symm.trans hx
      cases he
      rw [getV_tick, getV_setV, if_pos rfl, advance_dt]

/-! ### Runs of cycles (R88, R207) -/

section
variable {s t : State}

theorem run_succ (h : step s = .next t) (n : Nat) : Sys2Proof.core.run (n + 1) s = Sys2Proof.core.run n t := by
  have hstep : Sys2Proof.core.step s = .next t := h
  simp only [Host.Core.run, hstep]

/-- A run passes through a next state at every cycle. -/
theorem exists_step_of_run_succ {n : Nat} (h : Sys2Proof.core.run (n + 1) s = .next t) :
    ∃ u, step s = .next u ∧ Sys2Proof.core.run n u = .next t := by
  obtain ⟨u, hu⟩ := everyStepHasNextState s
  exact ⟨u, hu, (run_succ hu n).symm.trans h⟩

/-- What every step keeps, every run keeps. -/
theorem run_induction {P : State → Prop} (hstep : ∀ s t, P s → step s = .next t → P t) {n : Nat} (hs : P s)
    (h : Sys2Proof.core.run n s = .next t) : P t := by
  induction n generalizing s with
  | zero => cases h; exact hs
  | succ n ih =>
    obtain ⟨u, hu, hrun⟩ := exists_step_of_run_succ h
    exact ih (hstep s u hs hu) hrun

/-- A longer run goes on from where the shorter one ended. -/
theorem run_add {n : Nat} (h : Sys2Proof.core.run n s = .next t) (m : Nat) :
    Sys2Proof.core.run (n + m) s = Sys2Proof.core.run m t := by
  induction n generalizing s with
  | zero => cases h; rw [Nat.zero_add]
  | succ n ih =>
    obtain ⟨u, hu, hrun⟩ := exists_step_of_run_succ h
    rw [Nat.add_right_comm, run_succ hu, ih hrun]

end

/-- Settles O15, by induction on the number of cycles. -/
theorem faultedCoreDoesNothing : Obligations.FaultedCoreDoesNothing := by
  intro n s hf
  induction n with
  | zero => rfl
  | succ n ih => rw [run_succ (step_of_faulted hf), ih]

/-- Settles O57: the invariant at the end of the run explains the record, and the cycles after it do nothing. -/
theorem faultIsFinal : Obligations.FaultIsFinal := by
  intro n m s t hs h ht
  have hinv : Inv t := run_induction stepKeepsInvariant hs h
  exact ⟨hinv.explains ht, (run_add h m).trans (faultedCoreDoesNothing m t ht)⟩

end Sys2Proof.Machine

/-! PROOF. The flow family (spec/41_flow.md): return, jump and call, and the two runs made of them. -/

namespace Sys2Proof.Machine

/-! ### The words of the flow instructions (R61, R63) -/

/-- The decoder selects by the word's top nibble (R64). -/
theorem fieldOp_toNat_eq_nibble (w : Word) : (fieldOp w).toNat = nibble w 3 := by
  have := w.isLt
  rw [fieldOp_toNat, nibble]; omega

theorem decodeWord_jp_of_nibble {w : Word} (h : nibble w 3 = 0x1) : decodeWord w = some (.jp (fieldNNN w)) := by
  simp only [decodeWord, fieldOp_toNat_eq_nibble, h]

theorem decodeWord_call_of_nibble {w : Word} (h : nibble w 3 = 0x2) : decodeWord w = some (.call (fieldNNN w)) := by
  simp only [decodeWord, fieldOp_toNat_eq_nibble, h]

/-- No other word decodes to `RET`, since the decoder drops no bit. -/
theorem decodeWord_eq_ret_iff {w : Word} : decodeWord w = some .ret ↔ w = 0x00EE := by
  constructor
  · intro h
    obtain ⟨hencode, -⟩ := encode_eq_and_wellFormed_of_decodeWord h
    exact hencode.symm
  · rintro rfl; rfl

/-- Zero extension keeps the address (R62). -/
theorem zextAddr_toNat (nnn : Addr) : (zextAddr nnn).toNat = nnn.toNat :=
  BitVec.toNat_setWidth_of_le (by decide)

/-! ### What the flow instructions answer, branch by branch (R101 to R103) -/

section
variable {s : State}

theorem exec_ret_of_sp_ne (h : s.sp ≠ 0) : exec .ret s = .next s.popPc :=
  if_neg h

theorem exec_ret_of_sp_eq (h : s.sp = 0) : exec .ret s = .next (raise .ret .stackUnderflow 0 s) :=
  if_pos h

theorem exec_call_of_sp_ne (nnn : Addr) (h : s.sp ≠ 15) :
    exec (.call nnn) s = .next ((s.push s.pc).setPc (zextAddr nnn)) :=
  if_neg h

theorem exec_call_of_sp_eq (nnn : Addr) (h : s.sp = 15) :
    exec (.call nnn) s = .next (raise (.call nnn) .stackOverflow 16 s) :=
  if_pos h

end

/-! ### Frames of an instruction that completes -/

/-- An instruction that leaves the fault record alone is quiet. -/
theorem quiet_of_exec {i : Instr} {s t : State} (h : exec i s = .next t) (hrec : t.faultRec = s.faultRec) :
    Quiet s t := by
  obtain ⟨hmem, hst, hsink, hkeyIn, hcycle⟩ := exec_keeps h
  exact ⟨fun a => congrArg (Memory.read · a) hmem, hst, hrec, hsink, hkeyIn, hcycle⟩

theorem onlyPc_setPc (s : State) (w : Word) : OnlyPc s (s.setPc w) :=
  ⟨fun _ => rfl, rfl, ⟨rfl, fun _ => rfl⟩, rfl, ⟨fun _ _ _ _ => rfl, rfl, rfl⟩,
    ⟨fun _ => rfl, rfl, rfl, rfl, rfl, rfl⟩⟩

/-! ### The instructions one by one -/

/-- Settles O26: the encoder fixes the word, and each branch on `SP` answers what `exec_ret_of_sp_ne` and
`exec_ret_of_sp_eq` say. -/
theorem retReturns : Obligations.RetReturns := by
  refine ⟨fun w => decodeWord_eq_ret_iff, fun s hsp => ?_, fun s hsp => ?_⟩
  · have he := exec_ret_of_sp_ne hsp
    have hsub : (s.sp - 1).toNat = s.sp.toNat - 1 := by bv_omega
    exact ⟨s.popPc, he, rfl, hsub, fun _ => rfl, fun _ => rfl, rfl, rfl, ⟨fun _ _ _ _ => rfl, rfl, rfl⟩,
      quiet_of_exec he rfl⟩
  · exact ⟨_, exec_ret_of_sp_eq hsp, faultedAs_raise (by decide), fun _ _ _ _ => rfl, rfl⟩

/-- Settles O27: the meaning is one write of `PC`. -/
theorem jpJumps : Obligations.JpJumps :=
  ⟨fun w h => ⟨fieldNNN w, decodeWord_jp_of_nibble h, fieldNNN_toNat w⟩,
    fun nnn s => ⟨s.setPc (zextAddr nnn), rfl, zextAddr_toNat nnn, onlyPc_setPc s _⟩⟩

/-- Settles O29: the new slot reads the pushed address and every other slot as before, by `slot_push`. -/
theorem callPushesReturnAddress : Obligations.CallPushesReturnAddress := by
  refine ⟨fun w h => ⟨fieldNNN w, decodeWord_call_of_nibble h, fieldNNN_toNat w⟩, fun nnn s hsp => ?_,
    fun nnn s hsp => ?_⟩
  · have he := exec_call_of_sp_ne nnn hsp
    have hsucc : (s.sp + 1).toNat = s.sp.toNat + 1 := by bv_omega
    have hnew : (s.push s.pc).slot (s.sp + 1) = s.pc := by rw [slot_push, if_pos rfl]
    have hold (k : BitVec 4) (hk : k ≠ s.sp + 1) : (s.push s.pc).slot k = s.slot k := by
      rw [slot_push, if_neg hk.symm]
    exact ⟨(s.push s.pc).setPc (zextAddr nnn), he, hsucc, hnew, hold, zextAddr_toNat nnn, fun _ => rfl, rfl, rfl,
      ⟨fun _ _ _ _ => rfl, rfl, rfl⟩, quiet_of_exec he rfl⟩
  · exact ⟨_, exec_call_of_sp_eq nnn hsp, faultedAs_raise (by decide), fun _ _ _ _ => rfl, rfl⟩

/-! ### Cycles that run them -/

/-- The state a cycle leaves that ran a call to `nnn` (R82, R87, R103; `step_of_call`). -/
def State.afterCall (s : State) (nnn : Addr) : State := ((s.push (s.pc + 2)).setPc (zextAddr nnn)).tick

section
variable {s : State} {nnn : Addr}

theorem step_of_jp (hf : s.faulted = false) (hp : s.pc.toNat ≤ 0x0FFE)
    (hd : decodeWord s.fetchWord = some (.jp nnn)) :
    step s = .next (s.setPc (zextAddr nnn)).tick :=
  step_of_exec hf hp hd rfl hf

theorem step_of_call (hf : s.faulted = false) (hp : s.pc.toNat ≤ 0x0FFE)
    (hd : decodeWord s.fetchWord = some (.call nnn)) (hsp : s.sp ≠ 15) :
    step s = .next (s.afterCall nnn) :=
  step_of_exec hf hp hd (exec_call_of_sp_ne nnn hsp) hf

theorem step_of_ret (hf : s.faulted = false) (hp : s.pc.toNat ≤ 0x0FFE) (hw : s.fetchWord = 0x00EE)
    (hsp : s.sp ≠ 0) : step s = .next s.popPc.tick :=
  step_of_exec hf hp (decodeWord_eq_ret_iff.2 hw) (exec_ret_of_sp_ne hsp) hf

/-- The slot that the call wrote holds the address after the call (R103). -/
theorem slot_afterCall (s : State) (nnn : Addr) : (s.afterCall nnn).slot (s.sp + 1) = s.pc + 2 := by
  simp [State.afterCall]

/-- After a call the fetch reads the two bytes at its target (R45). -/
theorem fetchWord_afterCall (s : State) (nnn : Addr) :
    (s.afterCall nnn).fetchWord = wordOfBytes (s.mem.read nnn.toNat) (s.mem.read (nnn.toNat + 1)) := by
  simp [State.fetchWord, State.afterCall, zextAddr_toNat]

end

/-- Settles O28: the write puts into `PC` what it holds, so the cycle is its tick. -/
theorem selfJumpOnlyCountsTime : Obligations.SelfJumpOnlyCountsTime := by
  intro s nnn hf hp hd hself
  have hz : zextAddr nnn = s.pc := BitVec.eq_of_toNat_eq ((zextAddr_toNat nnn).trans hself)
  have hstep : step s = .next (s.setPc s.pc).tick := hz ▸ step_of_jp hf hp hd
  exact ⟨_, hstep, rfl⟩

/-- Settles O30: the word fetched after the call is `RET`, whose pop reads the slot that the call wrote and undoes the
increment of `SP`. -/
theorem callThenReturn : Obligations.CallThenReturn := by
  intro s nnn hf hp hd hsp htarget hhi hlo
  have hcall : step s = .next (s.afterCall nnn) := step_of_call hf hp hd hsp
  have hpc : (s.afterCall nnn).pc.toNat ≤ 0x0FFE := (zextAddr_toNat nnn).trans_le htarget
  have hword : (s.afterCall nnn).fetchWord = 0x00EE := by rw [fetchWord_afterCall, hhi, hlo]; rfl
  have hdepth : s.sp + 1 ≠ 0 := by bv_omega
  have hret : step (s.afterCall nnn) = .next (s.afterCall nnn).popPc.tick := step_of_ret hf hpc hword hdepth
  have hrun : Sys2Proof.core.run 2 s = .next (s.afterCall nnn).popPc.tick := by
    rw [run_succ hcall, run_succ hret]; rfl
  exact ⟨_, hrun, hf, slot_afterCall s nnn, BitVec.add_sub_cancel s.sp 1, slot_afterCall s nnn⟩

end Sys2Proof.Machine

/-! PROOF. The skip family (spec/42_skip.md): the conditional skips on registers, alone and as a complementary pair. -/

namespace Sys2Proof.Machine

/-! ### The words of the skips (R61, R63, R64) -/

theorem decodeWord_seVxNn_of_nibble {w : Word} (h : nibble w 3 = 0x3) :
    decodeWord w = some (.seVxNn (fieldX w) (fieldNN w)) := by
  simp only [decodeWord, fieldOp_toNat_eq_nibble, h]

theorem decodeWord_sneVxNn_of_nibble {w : Word} (h : nibble w 3 = 0x4) :
    decodeWord w = some (.sneVxNn (fieldX w) (fieldNN w)) := by
  simp only [decodeWord, fieldOp_toNat_eq_nibble, h]

/-- The second level of the decoder at top nibble 9 is the low nibble (R64). -/
theorem decodeWord_of_nibble_eq_nine {w : Word} (h : nibble w 3 = 0x9) :
    decodeWord w = if fieldN w = 0 then some (.se9VxVy (fieldX w) (fieldY w)) else none := by
  simp only [decodeWord, fieldOp_toNat_eq_nibble, h]

theorem fieldX_val_eq_nibble (w : Word) : (fieldX w).val = nibble w 2 :=
  fieldX_val w

theorem fieldY_val_eq_nibble (w : Word) : (fieldY w).val = nibble w 1 :=
  fieldY_val w

theorem fieldN_eq_nibble (w : Word) : fieldN w = nibble w 0 := by
  rw [fieldN_eq, nibble, pow_zero, Nat.div_one]

/-! ### An instruction that answers a skip (R111 to R113) -/

section
variable {s : State} {c : Bool} {i : Instr}

/-- Taken or not, a skip is one write of `PC`: an untaken one writes what `PC` holds. -/
theorem onlyPc_skipIf (s : State) (c : Bool) : OnlyPc s (s.skipIf c) :=
  match c with
  | true => onlyPc_setPc s (s.pc + 2)
  | false => onlyPc_setPc s s.pc

theorem skipIf_pc_of_true (h : c = true) : (s.skipIf c).pc = s.pc + 2 :=
  (skipIf_pc s c).trans (if_pos h)

theorem skipIf_pc_of_false (h : c = false) : (s.skipIf c).pc = s.pc :=
  (skipIf_pc s c).trans (if_neg (ne_true_of_eq_false h))

/-- What an instruction that answers `skipIf c` does, for any propositions `skips` and `stays` that say when `c` is
true and when it is false. -/
theorem exec_skips_exactly_when {skips stays : Prop} (he : exec i s = .next (s.skipIf c))
    (hskips : skips → c = true) (hstays : stays → c = false) :
    ∃ t, exec i s = .next t ∧ (skips → t.pc = s.pc + 2) ∧ (stays → t.pc = s.pc) ∧ OnlyPc s t :=
  ⟨s.skipIf c, he, fun h => skipIf_pc_of_true (hskips h), fun h => skipIf_pc_of_false (hstays h), onlyPc_skipIf s c⟩

/-! ### Cycles that skip or not -/

/-- The state a cycle leaves whose instruction answered `skipIf c` (R82, R87; `step_of_skip`). -/
def State.afterSkip (s : State) (c : Bool) : State := (s.advance.skipIf c).tick

theorem step_of_skip (hf : s.faulted = false) (hp : s.pc.toNat ≤ 0x0FFE) (hd : decodeWord s.fetchWord = some i)
    (he : exec i s.advance = .next (s.advance.skipIf c)) : step s = .next (s.afterSkip c) :=
  step_of_exec hf hp hd he ((congrArg FaultRecord.fault (skipIf_faultRec s.advance c)).trans hf)

/-- A taken skip: the advance by 2, and 2 more. -/
theorem afterSkip_pc_of_true (h : c = true) : (s.afterSkip c).pc = s.pc + 4 :=
  calc (s.afterSkip c).pc = s.pc + 2 + 2 := skipIf_pc_of_true h
    _ = s.pc + 4 := BitVec.add_assoc s.pc 2 2

/-- An untaken skip: the advance alone. -/
theorem afterSkip_pc_of_false (h : c = false) : (s.afterSkip c).pc = s.pc + 2 :=
  skipIf_pc_of_false h

theorem step_of_seVxNn {x : Reg} {nn : Byte} (hf : s.faulted = false) (hp : s.pc.toNat ≤ 0x0FFE)
    (hd : decodeWord s.fetchWord = some (.seVxNn x nn)) : step s = .next (s.afterSkip (s.getV x == nn)) :=
  step_of_skip hf hp hd rfl

theorem step_of_sneVxNn {x : Reg} {nn : Byte} (hf : s.faulted = false) (hp : s.pc.toNat ≤ 0x0FFE)
    (hd : decodeWord s.fetchWord = some (.sneVxNn x nn)) : step s = .next (s.afterSkip (s.getV x != nn)) :=
  step_of_skip hf hp hd rfl

end

/-! ### The statements -/

/-- Settles O34: the two cycles answer `afterSkip` of opposite conditions on the one value of `V[X]`. -/
theorem skipsAreComplementary : Obligations.SkipsAreComplementary := by
  intro s u x nn hsf huf hsp hup hv hsd hud
  have hse : step s = .next (s.afterSkip (s.getV x == nn)) := step_of_seVxNn hsf hsp hsd
  have hsne : step u = .next (u.afterSkip (s.getV x != nn)) := hv ▸ step_of_sneVxNn huf hup hud
  refine ⟨_, _, hse, hsne, fun heq => ?_, fun hne => ?_⟩
  · exact ⟨afterSkip_pc_of_true (beq_iff_eq.2 heq), afterSkip_pc_of_false (bne_eq_false_iff_eq.2 heq)⟩
  · exact ⟨afterSkip_pc_of_false (beq_eq_false_iff_ne.2 hne), afterSkip_pc_of_true (bne_iff_ne.2 hne)⟩

/-- Settles O31: the meaning answers `skipIf` of `V[X] == NN`. -/
theorem seSkipsOnEqual : Obligations.SeSkipsOnEqual :=
  ⟨fun w h => ⟨fieldX w, fieldNN w, decodeWord_seVxNn_of_nibble h, fieldX_val_eq_nibble w, fieldNN_toNat w⟩,
    fun _ _ _ => exec_skips_exactly_when rfl beq_iff_eq.2 beq_eq_false_iff_ne.2⟩

/-- Settles O32: the meaning answers `skipIf` of `V[X] != NN`. -/
theorem sneSkipsOnDifferent : Obligations.SneSkipsOnDifferent :=
  ⟨fun w h => ⟨fieldX w, fieldNN w, decodeWord_sneVxNn_of_nibble h, fieldX_val_eq_nibble w, fieldNN_toNat w⟩,
    fun _ _ _ => exec_skips_exactly_when rfl bne_iff_ne.2 bne_eq_false_iff_eq.2⟩

/-- Settles O33: the low nibble decides the word, and the meaning answers `skipIf` of `V[X] == V[Y]`. -/
theorem se9SkipsOnEqual : Obligations.Se9SkipsOnEqual := by
  refine ⟨fun w h => ⟨fun hzero => ?_, fun hne => ?_⟩, fun x y s => ?_⟩
  · have hd : decodeWord w = some (.se9VxVy (fieldX w) (fieldY w)) :=
      (decodeWord_of_nibble_eq_nine h).trans (if_pos ((fieldN_eq_nibble w).trans hzero))
    exact ⟨fieldX w, fieldY w, hd, fieldX_val_eq_nibble w, fieldY_val_eq_nibble w⟩
  · rw [← fieldN_eq_nibble] at hne
    exact (decodeWord_of_nibble_eq_nine h).trans (if_neg hne)
  · exact exec_skips_exactly_when rfl beq_iff_eq.2 beq_eq_false_iff_ne.2

end Sys2Proof.Machine

/-! PROOF. The register family (spec/43_register.md): the loads of one register, and a load followed by a zero add. -/

namespace Sys2Proof.Machine

/-! ### The words of the loads (R61, R63, R64) -/

theorem decodeWord_ldVxNn_of_nibble {w : Word} (h : nibble w 3 = 0x6) :
    decodeWord w = some (.ldVxNn (fieldX w) (fieldNN w)) := by
  simp only [decodeWord, fieldOp_toNat_eq_nibble, h]

theorem decodeWord_addVxNn_of_nibble {w : Word} (h : nibble w 3 = 0x7) :
    decodeWord w = some (.addVxNn (fieldX w) (fieldNN w)) := by
  simp only [decodeWord, fieldOp_toNat_eq_nibble, h]

theorem decodeWord_rndVxNn_of_nibble {w : Word} (h : nibble w 3 = 0xC) :
    decodeWord w = some (.rndVxNn (fieldX w) (fieldNN w)) := by
  simp only [decodeWord, fieldOp_toNat_eq_nibble, h]

/-- The second level of the decoder at top nibble 8 is the low nibble (R64). -/
theorem decodeWord_of_nibble_eq_eight {w : Word} (h : nibble w 3 = 0x8) :
    decodeWord w = if fieldN w = 0 then some (.ldVxVy (fieldX w) (fieldY w)) else none := by
  simp only [decodeWord, fieldOp_toNat_eq_nibble, h]

/-- The operands of an instruction decoded from `X` and `NN`, by arithmetic, for any constructor `f`. -/
theorem exists_operands_of_decodeWord_xnn {w : Word} {f : Reg → Byte → Instr}
    (h : decodeWord w = some (f (fieldX w) (fieldNN w))) :
    ∃ x nn, decodeWord w = some (f x nn) ∧ x.val = nibble w 2 ∧ nn.toNat = w.toNat % 256 :=
  ⟨fieldX w, fieldNN w, h, fieldX_val_eq_nibble w, fieldNN_toNat w⟩

/-! ### An instruction that writes one register (R120 to R124) -/

section
variable {s t : State} {x : Reg} {b nn : Byte} {i : Instr}

theorem getV_setV_same (s : State) (x : Reg) (b : Byte) : (s.setV x b).getV x = b :=
  (getV_setV s x x b).trans (if_pos rfl)

theorem onlyV_setV (s : State) (x : Reg) (b : Byte) : OnlyV x s (s.setV x b) :=
  ⟨fun y hy => (getV_setV s x y b).trans (if_neg hy.symm), rfl, rfl, ⟨rfl, fun _ => rfl⟩, rfl, fun _ _ _ _ => rfl, rfl,
    ⟨fun _ => rfl, rfl, rfl, rfl, rfl, rfl⟩⟩

/-- `OnlyV` does not look at the random bytes to come, so taking one first is no change to it. -/
theorem OnlyV.of_takeRnd (h : OnlyV x s.takeRnd t) : OnlyV x s t := by
  obtain ⟨hv, hindex, hpc, hstack, hdt, hpixels, hevents, hmem, hst, hrec, hsink, hkeyIn, hcycle⟩ := h
  exact ⟨hv, hindex, hpc, hstack, hdt, hpixels, hevents, hmem, hst, hrec, hsink, hkeyIn, hcycle⟩

/-- What an instruction that answers one write of `V[x]` does. -/
theorem exec_loads_register (he : exec i s = .next (s.setV x b)) :
    ∃ t, exec i s = .next t ∧ t.getV x = b ∧ OnlyV x s t ∧ t.rndIn = s.rndIn :=
  ⟨s.setV x b, he, getV_setV_same s x b, onlyV_setV s x b, rfl⟩

/-- What `CXNN` does: the byte is read, then dropped, and `V[x]` is written (R124, R126). -/
theorem exec_rndVxNn_loads_register (x : Reg) (nn : Byte) (s : State) :
    ∃ t, exec (.rndVxNn x nn) s = .next t ∧ t.getV x = s.rnd &&& nn ∧ OnlyV x s t ∧ t.rndIn = s.rndIn.tail :=
  ⟨s.takeRnd.setV x (s.rnd &&& nn), rfl, getV_setV_same _ x _, (onlyV_setV _ x _).of_takeRnd, rfl⟩

/-! ### Cycles that write one register -/

/-- The state a cycle leaves whose instruction answered one write of `V[x]` (R82, R87; `step_of_load`). -/
def State.afterLoad (s : State) (x : Reg) (b : Byte) : State := (s.advance.setV x b).tick

theorem step_of_load (hf : s.faulted = false) (hp : s.pc.toNat ≤ 0x0FFE) (hd : decodeWord s.fetchWord = some i)
    (he : exec i s.advance = .next (s.advance.setV x b)) : step s = .next (s.afterLoad x b) :=
  step_of_exec hf hp hd he hf

theorem afterLoad_getV (s : State) (x : Reg) (b : Byte) : (s.afterLoad x b).getV x = b :=
  getV_setV_same s.advance x b

theorem step_of_ldVxNn (hf : s.faulted = false) (hp : s.pc.toNat ≤ 0x0FFE)
    (hd : decodeWord s.fetchWord = some (.ldVxNn x nn)) : step s = .next (s.afterLoad x nn) :=
  step_of_load hf hp hd rfl

theorem step_of_addVxNn (hf : s.faulted = false) (hp : s.pc.toNat ≤ 0x0FFE)
    (hd : decodeWord s.fetchWord = some (.addVxNn x nn)) : step s = .next (s.afterLoad x (s.getV x + nn)) :=
  step_of_load hf hp hd rfl

end

/-! ### The statements -/

/-- Settles O41: the first cycle leaves `V[X] = NN` and memory as it was, so the second fetches `7X00`, which adds 0 to
that `NN`. -/
theorem loadThenZeroAddIsIdentity : Obligations.LoadThenZeroAddIsIdentity := by
  intro s x nn hf hp hld hadd
  have hload : step s = .next (s.afterLoad x nn) := step_of_ldVxNn hf (hp.trans (by decide)) hld
  have hpc : (s.afterLoad x nn).pc = s.pc + 2 := rfl
  have hrange : (s.afterLoad x nn).pc.toNat ≤ 0x0FFE := by rw [hpc]; bv_omega
  have hword : decodeWord (s.afterLoad x nn).fetchWord = some (.addVxNn x 0) :=
    (congrArg decodeWord (fetchWord_congr rfl hpc)).trans hadd
  have hsum : (s.afterLoad x nn).getV x + 0 = nn := (BitVec.add_zero _).trans (afterLoad_getV s x nn)
  have hzero : step (s.afterLoad x nn) = .next ((s.afterLoad x nn).afterLoad x nn) := by
    simpa only [hsum] using step_of_addVxNn (s := s.afterLoad x nn) hf hrange hword
  have hrun : Sys2Proof.core.run 2 s = .next ((s.afterLoad x nn).afterLoad x nn) := by
    rw [run_succ hload, run_succ hzero]; rfl
  exact ⟨_, hrun, afterLoad_getV _ x nn, BitVec.add_assoc s.pc 2 2⟩

/-- Settles O37: the meaning is one write of `NN`. -/
theorem ldLoadsImmediate : Obligations.LdLoadsImmediate :=
  ⟨fun _ h => exists_operands_of_decodeWord_xnn (decodeWord_ldVxNn_of_nibble h), fun _ _ _ => exec_loads_register rfl⟩

/-- Settles O38: the meaning is one write of the 8-bit sum, which is the sum modulo 256. -/
theorem addAddsModulo256 : Obligations.AddAddsModulo256 := by
  refine ⟨fun _ h => exists_operands_of_decodeWord_xnn (decodeWord_addVxNn_of_nibble h), fun x nn s => ?_⟩
  obtain ⟨t, he, hv, hframe⟩ := exec_loads_register (i := .addVxNn x nn) (s := s) rfl
  exact ⟨t, he, hv ▸ BitVec.toNat_add (s.getV x) nn, hframe⟩

/-- Settles O39: the low nibble decides the word, and the meaning is one write of the old `V[Y]`. -/
theorem ldCopiesRegister : Obligations.LdCopiesRegister := by
  refine ⟨fun w h => ⟨fun hzero => ?_, fun hne => ?_⟩, fun x y s => exec_loads_register rfl⟩
  · have hd : decodeWord w = some (.ldVxVy (fieldX w) (fieldY w)) :=
      (decodeWord_of_nibble_eq_eight h).trans (if_pos ((fieldN_eq_nibble w).trans hzero))
    exact ⟨fieldX w, fieldY w, hd, fieldX_val_eq_nibble w, fieldY_val_eq_nibble w⟩
  · rw [← fieldN_eq_nibble] at hne
    exact (decodeWord_of_nibble_eq_eight h).trans (if_neg hne)

/-- Settles O40: the meaning takes the byte and is one write of it AND `NN`. -/
theorem rndAndsRandomByte : Obligations.RndAndsRandomByte :=
  ⟨fun _ h => exists_operands_of_decodeWord_xnn (decodeWord_rndVxNn_of_nibble h), exec_rndVxNn_loads_register⟩

/-- Settles O9: where the list names the byte `r`, the byte of this cycle is `r`. -/
theorem everyRandomByteIsPossible : Obligations.EveryRandomByteIsPossible := by
  intro x nn r s
  have hrnd : State.rnd { s with rndIn := [r] } = r := rfl
  obtain ⟨t, he, hv, -⟩ := exec_rndVxNn_loads_register x nn { s with rndIn := [r] }
  exact ⟨t, he, hrnd ▸ hv⟩

end Sys2Proof.Machine

/-! PROOF. The index family (spec/44_index.md): the two instructions that write `I`. -/

namespace Sys2Proof.Machine

/-! ### The words of the index instructions (R61, R63, R64) -/

theorem decodeWord_ldINnn_of_nibble {w : Word} (h : nibble w 3 = 0xA) : decodeWord w = some (.ldINnn (fieldNNN w)) := by
  simp only [decodeWord, fieldOp_toNat_eq_nibble, h]

/-- The second level of the decoder at top nibble F is the low byte (R64). -/
theorem decodeWord_of_nibble_eq_fifteen {w : Word} (h : nibble w 3 = 0xF) :
    decodeWord w = if fieldNN w = 0x07#8 then some (.ldVxDt (fieldX w)) else
      if fieldNN w = 0x15#8 then some (.ldDtVx (fieldX w)) else
        if fieldNN w = 0x1E#8 then some (.addIVx (fieldX w)) else none := by
  simp only [decodeWord, fieldOp_toNat_eq_nibble, h]

theorem fieldNN_eq_of_mod {w : Word} {nn : Byte} (h : w.toNat % 256 = nn.toNat) : fieldNN w = nn :=
  BitVec.eq_of_toNat_eq ((fieldNN_toNat w).trans h)

theorem decodeWord_addIVx_of_nibble {w : Word} (hop : nibble w 3 = 0xF) (hnn : w.toNat % 256 = 0x1E) :
    decodeWord w = some (.addIVx (fieldX w)) := by
  have hlow : fieldNN w = 0x1E := fieldNN_eq_of_mod hnn
  rw [decodeWord_of_nibble_eq_fifteen hop, hlow]
  rfl

/-! ### An instruction that writes `I` (R131, R132) -/

section
variable {s : State} {x : Reg}

/-- What an instruction that answers one write of `I` does. -/
theorem exec_writes_index {i : Instr} {w : Word} (he : exec i s = .next (s.setIndex w)) :
    ∃ t, exec i s = .next t ∧ t.index.toNat = w.toNat ∧ KeepsV s t ∧ t.pc = s.pc ∧ KeepsStack s t ∧ t.dt = s.dt ∧
      KeepsOutside s t ∧ Quiet s t :=
  ⟨s.setIndex w, he, rfl, fun _ => rfl, rfl, ⟨rfl, fun _ => rfl⟩, rfl, ⟨fun _ _ _ _ => rfl, rfl, rfl⟩,
    quiet_of_exec he rfl⟩

theorem exec_addIVx_of_le (h : s.indexSum x ≤ 0xFFFF) :
    exec (.addIVx x) s = .next (s.setIndex (BitVec.ofNat 16 (s.indexSum x))) :=
  if_neg (Nat.not_lt.2 h)

theorem exec_addIVx_of_lt (h : 0xFFFF < s.indexSum x) :
    exec (.addIVx x) s = .next (raise (.addIVx x) .indexOverflow (s.indexSum x) s) :=
  if_pos h

end

/-! ### The statements -/

/-- Settles O42: the meaning is one write of the zero-extended `NNN`. -/
theorem ldISetsIndex : Obligations.LdISetsIndex := by
  refine ⟨fun w h => ⟨fieldNNN w, decodeWord_ldINnn_of_nibble h, fieldNNN_toNat w⟩, fun nnn s => ?_⟩
  rw [← zextAddr_toNat nnn]
  exact exec_writes_index rfl

/-- Settles O43: a sum that 16 bits hold is written as it is, and any other is raised, with the 32 bits of `FINFO` wide
enough for it. -/
theorem addIAddsOrFaults : Obligations.AddIAddsOrFaults := by
  refine ⟨fun w hop hnn => ⟨fieldX w, decodeWord_addIVx_of_nibble hop hnn, fieldX_val_eq_nibble w⟩,
    fun x s => ⟨fun hfits => ?_, fun hover => ?_⟩⟩
  · have hsum : (BitVec.ofNat 16 (s.indexSum x)).toNat = s.indexSum x :=
      (BitVec.toNat_ofNat _ 16).trans (Nat.mod_eq_of_lt (Nat.lt_succ_of_le hfits))
    obtain ⟨t, he, hindex, hframe⟩ := exec_writes_index (exec_addIVx_of_le hfits)
    exact ⟨t, he, hindex.trans hsum, hframe⟩
  · exact ⟨_, exec_addIVx_of_lt hover, faultedAs_raise (indexSum_lt s x), fun _ _ _ _ => rfl, rfl⟩

end Sys2Proof.Machine

/-! PROOF. The draw family (spec/45_draw.md) on the reference sink: a whole draw, a draw stopped off the grid, a sprite
that leaves memory, and a sprite with no row. -/

namespace Sys2Proof.Machine

/-! ### Toggling on the reference sink (R141, R145, R148) -/

/-- `d'` is `d` with the pixels of `P` complemented and no other pixel of the grid changed. -/
def Complements (P : Nat → Nat → Prop) (d d' : Display) : Prop :=
  ∀ px py, px < 64 → py < 32 →
    (P px py → d'.pixel px py = !d.pixel px py) ∧ (¬ P px py → d'.pixel px py = d.pixel px py)

/-- Complementing the same pixels twice restores the grid. -/
theorem Complements.restores {P : Nat → Nat → Prop} {d d' d'' : Display} (h : Complements P d d')
    (h' : Complements P d' d'') {px py : Nat} (hx : px < 64) (hy : py < 32) : d''.pixel px py = d.pixel px py := by
  obtain ⟨hin, hout⟩ := h px py hx hy
  obtain ⟨hin', hout'⟩ := h' px py hx hy
  by_cases hp : P px py
  · rw [hin' hp, hin hp, Bool.not_not]
  · rw [hout' hp, hout hp]

/-- On the grid the reference sink uses the pixel it is asked for (R224). -/
theorem filterMap_cell_strict {ps : List (Nat × Nat)} (h : ∀ p ∈ ps, onGrid p.1 p.2 = true) :
    ps.filterMap Sink.strict.cell = ps :=
  (List.filterMap_congr fun p hp => if_pos (h p hp)).trans List.filterMap_some

/-- Toggling a list of distinct pixels of the grid, those of `P`, on the reference sink: `plot_done` with the list named
by its members. -/
theorem plot_strict_complements {P : Nat → Nat → Prop} {ps : List (Nat × Nat)} (fb : Display) (hn : ps.Nodup)
    (hP : ∀ {px py}, (px, py) ∈ ps ↔ P px py) (hg : ∀ px py, P px py → GridPixel px py) :
    ∃ c, plot .strict ps ⟨fb, false, false⟩ = .done c ∧ Complements P fb c.fb ∧
      (c.collided = true ↔ ∃ px py, P px py ∧ fb.pixel px py = true) ∧ (c.toggled = true ↔ ∃ px py, P px py) := by
  have hon : ∀ p ∈ ps, onGrid p.1 p.2 = true := fun p hp => onGrid_iff.2 (hg _ _ (hP.1 hp))
  have hcells := filterMap_cell_strict hon
  obtain ⟨c, hplot, hfb, hcoll, htog⟩ := plot_done .strict ps ⟨fb, false, false⟩ (fun _ => hon) (by rwa [hcells])
  rw [hcells] at hfb hcoll
  refine ⟨c, hplot, fun px py hx hy => ?_, ?_, ?_⟩
  · rw [hfb px py hx hy]
    exact ⟨fun hp => if_pos (hP.2 hp), fun hp => if_neg (mt hP.1 hp)⟩
  · simp only [hcoll, Bool.false_eq_true, false_or, Prod.exists, hP]
  · simp only [htog, Bool.false_or, Bool.not_eq_true', List.isEmpty_eq_false_iff_exists_mem, Prod.exists, hP]

/-! ### What `DXYN` answers, branch by branch (R143, R148, R149) -/

/-- The state a draw that completes leaves: the display shown, then the collision flag written (R141). -/
def State.drawn (s : State) (c : Canvas) : State := (s.show c).setV flagReg (collisionFlag c.collided)

section
variable {x y : Reg} {n : Nat} {s : State} {c : Canvas}

theorem exec_drw_of_outOfRange (hn : 0 < n) (h : 0x0FFF < s.index.toNat + n - 1) :
    exec (.drw x y n) s = .next (raise (.drw x y n) .dataRange (max s.index.toNat 0x1000) s) :=
  if_pos (Bool.and_eq_true_iff.2 ⟨decide_eq_true hn, decide_eq_true h⟩)

theorem exec_drw_of_done (hm : s.spriteInMemory n)
    (hp : plot s.sink (s.drawPixels x y n) ⟨s.fb, false, false⟩ = .done c) :
    exec (.drw x y n) s = .next (s.drawn c) := by
  simp only [exec, execDrw, spriteOutOfRange_iff.2 hm, Bool.false_eq_true, if_false, hp, State.drawn]

theorem exec_drw_of_offGrid {px py : Nat} (hm : s.spriteInMemory n)
    (hp : plot s.sink (s.drawPixels x y n) ⟨s.fb, false, false⟩ = .offGrid c px py) :
    exec (.drw x y n) s = .next (raise (.drw x y n) .displayRange (pixelInfo px py) (s.show c)) := by
  simp only [exec, execDrw, spriteOutOfRange_iff.2 hm, Bool.false_eq_true, if_false, hp]

/-- With no row the display shown is the display there was, so the flag is all that is written (R149). -/
theorem exec_drw_zero (x y : Reg) (s : State) : exec (.drw x y 0) s = .next (s.setV 15 0) :=
  rfl

/-! ### What a draw that completes leaves (R141, R147) -/

theorem drawn_flag_of_collided (h : c.collided = true) : (s.drawn c).getV 15 = 1 := by
  rw [State.drawn, h]; exact getV_setV_same _ 15 1

theorem drawn_flag_of_not_collided (h : ¬ c.collided = true) : (s.drawn c).getV 15 = 0 := by
  rw [State.drawn, Bool.eq_false_iff.2 h]; exact getV_setV_same _ 15 0

theorem keepsVBut_drawn : KeepsVBut 15 s (s.drawn c) := fun z hz =>
  ((onlyV_setV (s.show c) flagReg _).v z hz).trans (getV_show s c z)

theorem keepsStack_drawn : KeepsStack s (s.drawn c) :=
  ⟨show_sp s c, slot_show s c⟩

theorem drawn_events_of_toggled (h : c.toggled = true) : (s.drawn c).events = .repaint :: s.events :=
  (show_events s c).trans (if_pos h)

theorem drawn_events_of_not_toggled (h : ¬ c.toggled = true) : (s.drawn c).events = s.events :=
  (show_events s c).trans (if_neg h)

end

/-! ### The set bits before a given one, in drawing order (R145, R148) -/

section
variable {s : State} {x y : Reg} {n r c : Nat}

/-- The pixel `(px, py)` belongs to a set bit drawn before the bit at row `r` and column `c`. -/
def State.spriteAtBefore (s : State) (x y : Reg) (r c px py : Nat) : Prop :=
  ∃ r' c', s.bitSet r' c' ∧ (r' < r ∨ (r' = r ∧ c' < c)) ∧ px = (s.getV x).toNat + c' ∧ py = (s.getV y).toNat + r'

/-- In a sorted list the pixels in front of `p` are those before `p`. -/
theorem mem_left_iff_pixelBefore {ps qs : List (Nat × Nat)} {p q : Nat × Nat}
    (h : (ps ++ p :: qs).Pairwise pixelBefore) : q ∈ ps ↔ q ∈ ps ++ p :: qs ∧ pixelBefore q p := by
  obtain ⟨-, hright, hcross⟩ := List.pairwise_append.1 h
  refine ⟨fun hq => ⟨List.mem_append_left _ hq, hcross q hq p List.mem_cons_self⟩, fun ⟨hq, hqp⟩ => ?_⟩
  obtain hq | hq := List.mem_append.1 hq
  · exact hq
  · exfalso
    unfold pixelBefore at hqp
    obtain rfl | hq := List.mem_cons.1 hq
    · omega
    · have hpq := (List.pairwise_cons.1 hright).1 q hq
      unfold pixelBefore at hpq
      omega

/-- A sprite's pixel before that of the set bit at `r`, `c` is one of a set bit before it, and conversely. -/
theorem spriteAt_and_pixelBefore_iff (hr : r < n) {px py : Nat} :
    s.spriteAt x y n px py ∧ pixelBefore (px, py) ((s.getV x).toNat + c, (s.getV y).toNat + r) ↔
      s.spriteAtBefore x y r c px py := by
  unfold pixelBefore
  constructor
  · rintro ⟨⟨r', c', -, hb, rfl, rfl⟩, hlt⟩
    exact ⟨r', c', hb, by omega, rfl, rfl⟩
  · rintro ⟨r', c', hb, hlt, rfl, rfl⟩
    exact ⟨⟨r', c', by omega, hb, rfl, rfl⟩, by omega⟩

/-- The toggles of a draw, cut at a set bit: those in front of it are the set bits before it. -/
theorem exists_drawPixels_split (hr : r < n) (hb : s.bitSet r c) :
    ∃ ps qs, s.drawPixels x y n = ps ++ ((s.getV x).toNat + c, (s.getV y).toNat + r) :: qs ∧ ps.Nodup ∧
      ∀ {px py}, (px, py) ∈ ps ↔ s.spriteAtBefore x y r c px py := by
  obtain ⟨ps, qs, hsplit⟩ := List.append_of_mem (mem_drawPixels (x := x) (y := y).2 ⟨r, c, hr, hb, rfl, rfl⟩)
  have hsorted := drawPixels_sorted s x y n
  have hnodup := drawPixels_nodup s x y n
  rw [hsplit] at hsorted hnodup
  refine ⟨ps, qs, hsplit, hnodup.of_append_left, fun {px py} => ?_⟩
  rw [mem_left_iff_pixelBefore hsorted, ← hsplit, mem_drawPixels, spriteAt_and_pixelBefore_iff hr]

end

/-! ### The sprite in another state -/

/-- The sprite of a state is read off memory, `I` and the two coordinate registers. -/
theorem spriteAt_congr {s t : State} {x y : Reg} (hmem : KeepsMem s t) (hindex : t.index = s.index)
    (hx : t.getV x = s.getV x) (hy : t.getV y = s.getV y) (n : Nat) : t.spriteAt x y n = s.spriteAt x y n := by
  funext px py
  simp only [State.spriteAt, State.bitSet, hmem _, hindex, hx, hy]

theorem spriteInMemory_congr {s t : State} (hindex : t.index = s.index) (n : Nat) :
    t.spriteInMemory n ↔ s.spriteInMemory n := by
  simp only [State.spriteInMemory, hindex]

/-! ### The statements -/

/-- Settles O46: the list of toggles is duplicate-free and on the grid, so the reference sink completes it, and what is
left is that display with the flag written. -/
theorem drawTogglesSetBits : Obligations.DrawTogglesSetBits := by
  intro x y n s hsink hm hgrid
  obtain ⟨c, hplot, hfb, hcoll, htog⟩ :=
    plot_strict_complements s.fb (drawPixels_nodup s x y n) mem_drawPixels hgrid
  have he : exec (.drw x y n) s = .next (s.drawn c) := exec_drw_of_done hm (by rw [hsink]; exact hplot)
  refine ⟨s.drawn c, he, ?_, fun h => drawn_flag_of_collided (hcoll.2 h),
    fun h => drawn_flag_of_not_collided (mt hcoll.1 h), keepsVBut_drawn, show_index s c, show_pc s c, keepsStack_drawn,
    show_dt s c, show_rndIn s c, quiet_of_exec he (show_faultRec s c), fun h => drawn_events_of_toggled (htog.2 h),
    fun h => drawn_events_of_not_toggled (mt htog.1 h)⟩
  have hshown : (s.drawn c).fb = c.fb := show_fb s c
  rw [hshown]
  exact hfb

/-- Settles O50: the set bits before the first off-grid one are on the grid, so they are toggled, and then the reference
sink refuses that bit's pixel. -/
theorem offGridPixelFaults : Obligations.OffGridPixelFaults := by
  intro x y n r c s hsink hn hm hr hb hoff hbefore
  obtain ⟨ps, qs, hsplit, hnodup, hps⟩ := exists_drawPixels_split (x := x) (y := y) hr hb
  obtain ⟨d, hplot, hfb, -, -⟩ := plot_strict_complements s.fb hnodup hps
    (by rintro px py ⟨r', c', hb', hlt, rfl, rfl⟩; exact hbefore r' c' hb' hlt)
  have hstop := plot_offGrid (Bool.eq_false_iff.2 (mt onGrid_iff.1 hoff)) qs ps hplot
  rw [← hsplit, ← hsink] at hstop
  obtain ⟨hx, hy⟩ := spriteAt_lt (y := y) hn ⟨r, c, hr, hb, rfl, rfl⟩
  have hinfo := pixelInfo_eq (py := (s.getV y).toNat + r) hx
  refine ⟨_, exec_drw_of_offGrid hm hstop, ?_, ?_⟩
  · rw [hinfo]
    exact faultedAs_of_show (faultedAs_raise (by omega))
  · rw [raise, raiseAt_fb, show_fb]
    exact hfb

/-- Settles O52. With `X` and `Y` not 15 the first draw leaves the sprite as it was, so the second complements the same
pixels and meets on the ones that were off. -/
theorem drawTwiceRestoresDisplay : Obligations.DrawTwiceRestoresDisplay := by
  intro x y n s hx hy hsink hm hgrid
  obtain ⟨t, ht, hfb, -, -, hv, hindex, -, -, -, -, hquiet, -, -⟩ := drawTogglesSetBits x y n s hsink hm hgrid
  have hsprite := spriteAt_congr hquiet.mem hindex (hv x hx) (hv y hy) n
  obtain ⟨u, hu, hfb', hone, hzero, -⟩ := drawTogglesSetBits x y n t (hquiet.sink.trans hsink)
    ((spriteInMemory_congr hindex n).2 hm) (by rwa [hsprite])
  rw [hsprite] at hfb' hone hzero
  have hon_iff : ∀ px py, s.spriteAt x y n px py ∧ t.fb.pixel px py = true ↔
      s.spriteAt x y n px py ∧ s.fb.pixel px py = false := fun px py => and_congr_right fun hp => by
    obtain ⟨hpx, hpy⟩ := hgrid px py hp
    rw [(hfb px py (by omega) (by omega)).1 hp, Bool.not_eq_true']
  simp only [hon_iff] at hone hzero
  exact ⟨t, u, ht, hu, fun _ _ hpx hpy => Complements.restores hfb hfb' hpx hpy, hone, hzero⟩

/-- Settles O49: the range check comes first, and the value it raises is the first address out of range. -/
theorem spriteOutOfMemoryFaults : Obligations.SpriteOutOfMemoryFaults := by
  refine ⟨fun x y n s hn h => ?_, fun x y s => ⟨_, exec_drw_zero x y s, rfl⟩⟩
  have hfirst : max s.index.toNat 0x1000 = if 0x0FFF < s.index.toNat then s.index.toNat else 0x1000 := by
    split <;> omega
  have hlt : max s.index.toNat 0x1000 < 2 ^ 32 := by have := s.index.isLt; omega
  rw [← hfirst]
  exact ⟨_, exec_drw_of_outOfRange hn h, faultedAs_raise hlt, fun _ _ _ _ => rfl, rfl⟩

/-- Settles O51: the meaning is one write of the flag. -/
theorem drawZeroRowsClearsFlag : Obligations.DrawZeroRowsClearsFlag :=
  fun x y s => exec_loads_register (exec_drw_zero x y s)

end Sys2Proof.Machine

/-! PROOF. The keypad family (spec/46_keypad.md): the levels a cycle reads, and the two skips on them. -/

namespace Sys2Proof.Machine

/-! ### The levels of a cycle (R162) -/

section
variable {s t : State}

/-- A named value is the 16 levels of the cycle. -/
theorem key_of_keyIn_cons {now : BitVec 16} {later : List (BitVec 16)} (h : s.keyIn = now :: later) (k : Nat) :
    s.key k = now.getLsbD k := by
  rw [State.key, State.keypad, h]

/-- A core that was faulted before a cycle is faulted after it (R88). -/
theorem faulted_eq_false_of_step (h : step s = .next t) (ht : t.faulted = false) : s.faulted = false := by
  by_contra hs
  cases (step_of_faulted (eq_true_of_ne_false hs)).symm.trans h
  exact hs ht

/-- A cycle that does not fault leaves the levels that stood behind its own: no instruction touches the list, and the
tick drops the first. -/
theorem step_keyIn_of_completes (h : step s = .next t) (ht : t.faulted = false) : t.keyIn = s.keyIn.tail := by
  rcases step_completes (faulted_eq_false_of_step h ht) h ht with ⟨-, rfl⟩ | ⟨i, u, -, he, rfl⟩
  · rfl
  · obtain ⟨-, -, -, hkeyIn, -⟩ := exec_keeps he
    rw [tick_keyIn, hkeyIn, advance_keyIn]

end

/-! ### The words of the keypad skips (R61, R63, R64) -/

/-- The second level of the decoder at top nibble E is the low byte (R64). -/
theorem decodeWord_of_nibble_eq_fourteen {w : Word} (h : nibble w 3 = 0xE) :
    decodeWord w = if fieldNN w = 0x9E#8 then some (.skp (fieldX w)) else
      if fieldNN w = 0xA1#8 then some (.sknp (fieldX w)) else none := by
  simp only [decodeWord, fieldOp_toNat_eq_nibble, h]

theorem decodeWord_skp_of_nibble {w : Word} (hop : nibble w 3 = 0xE) (hnn : w.toNat % 256 = 0x9E) :
    decodeWord w = some (.skp (fieldX w)) := by
  have hlow : fieldNN w = 0x9E := fieldNN_eq_of_mod hnn
  rw [decodeWord_of_nibble_eq_fourteen hop, hlow]
  rfl

theorem decodeWord_sknp_of_nibble {w : Word} (hop : nibble w 3 = 0xE) (hnn : w.toNat % 256 = 0xA1) :
    decodeWord w = some (.sknp (fieldX w)) := by
  have hlow : fieldNN w = 0xA1 := fieldNN_eq_of_mod hnn
  rw [decodeWord_of_nibble_eq_fourteen hop, hlow]
  rfl

/-! ### What the keypad skips answer, branch by branch (R161, R163, R164) -/

section
variable {s : State} {x : Reg}

theorem exec_skp_of_le (h : s.keyNumber x ≤ 15) : exec (.skp x) s = .next (s.skipIf (s.key (s.keyNumber x))) :=
  if_neg (Nat.not_lt.2 h)

theorem exec_skp_of_lt (h : 15 < s.keyNumber x) :
    exec (.skp x) s = .next (raise (.skp x) .keyRange (s.keyNumber x) s) :=
  if_pos h

theorem exec_sknp_of_le (h : s.keyNumber x ≤ 15) : exec (.sknp x) s = .next (s.skipIf (!s.key (s.keyNumber x))) :=
  if_neg (Nat.not_lt.2 h)

theorem exec_sknp_of_lt (h : 15 < s.keyNumber x) :
    exec (.sknp x) s = .next (raise (.sknp x) .keyRange (s.keyNumber x) s) :=
  if_pos h

/-- What an instruction that raises `KEY_RANGE` with the number in `V[x]` does: the record and `PC` are written, and the
8-bit number fits `FINFO` (R161, R204). -/
theorem exec_raises_keyRange {i : Instr} (he : exec i s = .next (raise i .keyRange (s.keyNumber x) s)) :
    ∃ t, exec i s = .next t ∧ FaultedAs i .keyRange (s.getV x).toNat s t ∧ KeepsPixels s t ∧ t.events = s.events :=
  ⟨_, he, faultedAs_raise (keyNumber_lt s x), fun _ _ _ _ => rfl, rfl⟩

end

/-! ### The statements -/

/-- Settles O8: the cycle reads the head of the list, and after it the list begins with the second value. -/
theorem keypadLevelsAreFree : Obligations.KeypadLevelsAreFree :=
  fun _ _ _ _ h ht => ⟨key_of_keyIn_cons rfl, key_of_keyIn_cons (step_keyIn_of_completes h ht)⟩

/-- Settles O35: with a key number the meaning answers `skipIf` of that key's level, and otherwise it raises. -/
theorem skpSkipsOnPressed : Obligations.SkpSkipsOnPressed :=
  ⟨fun w hop hnn => ⟨fieldX w, decodeWord_skp_of_nibble hop hnn, fieldX_val_eq_nibble w⟩,
    fun _ _ hkey => exec_skips_exactly_when (exec_skp_of_le hkey) id id,
    fun _ _ hover => exec_raises_keyRange (exec_skp_of_lt hover)⟩

/-- Settles O36: with a key number the meaning answers `skipIf` of that key's level negated, and otherwise it raises. -/
theorem sknpSkipsOnReleased : Obligations.SknpSkipsOnReleased :=
  ⟨fun w hop hnn => ⟨fieldX w, decodeWord_sknp_of_nibble hop hnn, fieldX_val_eq_nibble w⟩,
    fun _ _ hkey => exec_skips_exactly_when (exec_sknp_of_le hkey) (congrArg not) (congrArg not),
    fun _ _ hover => exec_raises_keyRange (exec_sknp_of_lt hover)⟩

end Sys2Proof.Machine


/-! PROOF. The timer family (spec/47_timer.md): the two instructions on `DT`, and its decay. -/

namespace Sys2Proof.Machine

/-! ### The words of the timer instructions (R61, R63, R64) -/

theorem decodeWord_ldVxDt_of_nibble {w : Word} (hop : nibble w 3 = 0xF) (hnn : w.toNat % 256 = 0x07) :
    decodeWord w = some (.ldVxDt (fieldX w)) :=
  (decodeWord_of_nibble_eq_fifteen hop).trans (if_pos (fieldNN_eq_of_mod hnn))

theorem decodeWord_ldDtVx_of_nibble {w : Word} (hop : nibble w 3 = 0xF) (hnn : w.toNat % 256 = 0x15) :
    decodeWord w = some (.ldDtVx (fieldX w)) := by
  have hlow : fieldNN w = 0x15 := fieldNN_eq_of_mod hnn
  rw [decodeWord_of_nibble_eq_fifteen hop, hlow]
  rfl

/-! ### Cycles and the timer (R87, R171, R172) -/

section
variable {s t : State} {x : Reg}

/-- The value loaded is `DT` as the cycle found it: the tick comes after. -/
theorem step_of_ldVxDt (hf : s.faulted = false) (hp : s.pc.toNat ≤ 0x0FFE)
    (hd : decodeWord s.fetchWord = some (.ldVxDt x)) : step s = .next (s.afterLoad x s.dt) :=
  step_of_load hf hp hd rfl

theorem afterLoad_dt (s : State) (x : Reg) (b : Byte) : (s.afterLoad x b).dt = decrement s.dt := rfl

/-- The tick of the same cycle applies to the value just written. -/
theorem step_of_ldDtVx (hf : s.faulted = false) (hp : s.pc.toNat ≤ 0x0FFE)
    (hd : decodeWord s.fetchWord = some (.ldDtVx x)) : step s = .next (s.advance.setDt (s.getV x)).tick :=
  step_of_exec hf hp hd rfl hf

/-- A cycle that neither faults nor runs `FX15` counts `DT` down by one: no other instruction writes it. -/
theorem step_dt_of_not_ldDtVx (hf : s.faulted = false) (h : step s = .next t) (ht : t.faulted = false)
    (hw : ∀ x, decodeWord s.fetchWord ≠ some (.ldDtVx x)) : t.dt.toNat = s.dt.toNat - 1 := by
  rcases step_completes hf h ht with ⟨-, rfl⟩ | ⟨i, u, hd, he, rfl⟩
  · exact decrement_toNat s.dt
  · have hkeep : u.dt = s.advance.dt := exec_dt he fun x hi => hw x (hi ▸ hd)
    rw [tick_dt, decrement_toNat, hkeep, advance_dt]

end

/-! ### The statements -/

/-- Settles O21, by induction on the number of cycles: the last of them takes one more off. -/
theorem delayTimerDecays : Obligations.DelayTimerDecays := by
  intro run k hrun
  induction k with
  | zero => rfl
  | succ k ih =>
    have hbefore : (run k).dt.toNat = (run 0).dt.toNat - k := ih fun j hj => hrun j (Nat.lt_succ_of_lt hj)
    obtain ⟨hf, hstep, ht, hw⟩ := hrun k k.lt_succ_self
    rw [step_dt_of_not_ldDtVx hf hstep ht hw, hbefore, Nat.sub_sub]

/-- Settles O44: the meaning is one write of `DT` to `V[X]`, and the tick follows it. -/
theorem ldVxDtReadsTimer : Obligations.LdVxDtReadsTimer := by
  refine ⟨fun w hop hnn => ⟨fieldX w, decodeWord_ldVxDt_of_nibble hop hnn, fieldX_val_eq_nibble w⟩,
    fun x s => exec_loads_register rfl, fun x s hf hp hd => ⟨_, step_of_ldVxDt hf hp hd, afterLoad_getV s x s.dt, ?_⟩⟩
  rw [afterLoad_dt, decrement_toNat]

/-- Settles O45: the meaning is one write of `V[X]` to `DT`, which the tick then decrements. -/
theorem ldDtVxWritesTimer : Obligations.LdDtVxWritesTimer :=
  ⟨fun w hop hnn => ⟨fieldX w, decodeWord_ldDtVx_of_nibble hop hnn, fieldX_val_eq_nibble w⟩,
    fun x s => ⟨s.setDt (s.getV x), rfl, rfl, fun _ => rfl, rfl, rfl, ⟨rfl, fun _ => rfl⟩,
      ⟨fun _ _ _ _ => rfl, rfl, rfl⟩, quiet_of_exec (i := .ldDtVx x) rfl rfl⟩,
    fun x s hf hp hd => ⟨_, step_of_ldDtVx hf hp hd, decrement_toNat (s.getV x)⟩⟩

end Sys2Proof.Machine

/-! PROOF. The exceptions family (spec/60_exceptions.md): when a cycle faults and what the record then says, the two
sinks that refuse no pixel, and the reset event. -/

namespace Sys2Proof.Machine

/-! ### The conditions of R202, before the cycle and after it -/

section
variable {i : Instr} {s t : State}

/-- The advance writes `PC` alone, which no condition of R202 reads. -/
theorem instrFaults_advance : InstrFaults s.advance i ↔ InstrFaults s i := by
  cases i <;> exact Iff.rfl

/-- The condition is about elements that a fault leaves as they were, so it held before the instruction too (R205). -/
theorem FaultedAs.instrFaults {c : Cause} {info : Nat} (h : FaultedAs i c info s t) (hc : FaultCondition t i) :
    InstrFaults s i := by
  cases i with
  | ret | call =>
    obtain ⟨-, hsp, -⟩ := hc
    exact h.stack.1.symm.trans hsp
  | skp x | sknp x =>
    obtain ⟨-, hkey, -⟩ := hc
    rwa [h.v] at hkey
  | addIVx x =>
    obtain ⟨-, hsum, -⟩ := hc
    rwa [h.v, h.index] at hsum
  | drw x y n =>
    rcases hc with ⟨-, hn, hlast, -⟩ | ⟨-, -, hsink, px, py, hp, hoff, -⟩
    · rw [h.index] at hlast
      refine .inl fun hm => ?_
      unfold State.spriteInMemory at hm
      omega
    · rw [spriteAt_congr h.mem h.index (h.v x) (h.v y)] at hp
      exact .inr ⟨h.sink.symm.trans hsink, px, py, hp, hoff⟩
  | _ => exact hc.elim

/-! ### An instruction under its condition faults (R202, R203) -/

/-- The range check comes before the drawing, so it decides the cause whatever the sink would refuse (R203). -/
theorem exec_drw_of_not_inMemory {x y : Reg} {n : Nat} (hm : ¬ s.spriteInMemory n) :
    exec (.drw x y n) s = .next (raise (.drw x y n) .dataRange (max s.index.toNat 0x1000) s) := by
  unfold State.spriteInMemory at hm
  exact exec_drw_of_outOfRange (by omega) (by omega)

/-- The reference sink refuses some pixel of a sprite that is not wholly on the grid (R148). -/
theorem exec_drw_strict_faulted {x y : Reg} {n px py : Nat} (hsink : s.sink = .strict) (hp : s.spriteAt x y n px py)
    (hoff : ¬ GridPixel px py) (h : exec (.drw x y n) s = .next t) : t.faulted = true := by
  rcases execDrw_cases x y n s with ⟨-, he⟩ | ⟨c, -, hplot, -⟩ | ⟨_, _, _, -, -, he⟩
  · cases he.symm.trans h; rfl
  · rw [hsink] at hplot
    exact absurd (onGrid_iff.1 (plot_done_inv hplot _ (mem_drawPixels.2 hp))) hoff
  · cases he.symm.trans h; rfl

theorem exec_faulted_of_instrFaults (hi : InstrFaults s i) (h : exec i s = .next t) : t.faulted = true := by
  cases i with
  | ret => cases (exec_ret_of_sp_eq hi).symm.trans h; rfl
  | call nnn => cases (exec_call_of_sp_eq nnn hi).symm.trans h; rfl
  | skp x => cases (exec_skp_of_lt hi).symm.trans h; rfl
  | sknp x => cases (exec_sknp_of_lt hi).symm.trans h; rfl
  | addIVx x => cases (exec_addIVx_of_lt hi).symm.trans h; rfl
  | drw x y n =>
    rcases hi with hm | ⟨hsink, px, py, hp, hoff⟩
    · cases (exec_drw_of_not_inMemory hm).symm.trans h; rfl
    · exact exec_drw_strict_faulted hsink hp hoff h
  | _ => exact hi.elim

end

/-! ### A cycle that faults (R81, R202, R204) -/

section
variable {s t : State}

theorem step_faulted_of_cycleFaults (h : step s = .next t) (hf : s.faulted = false) (hc : CycleFaults s) :
    t.faulted = true := by
  by_cases hp : 0x0FFE < s.pc.toNat
  · cases (step_of_fetchOutOfRange hf hp).symm.trans h; rfl
  · obtain ⟨i, hd, hi⟩ := hc.resolve_left hp
    obtain ⟨u, hu⟩ := exec_next i s.advance
    rw [step_of_decode hf (Nat.not_lt.1 hp) hd, hu] at h
    cases h
    rw [State.faulted, endCycle_faultRec]
    exact exec_faulted_of_instrFaults (instrFaults_advance.2 hi) hu

theorem cycleFaults_of_step_faulted (h : step s = .next t) (hf : s.faulted = false) (ht : t.faulted = true) :
    CycleFaults s := by
  rcases step_faults hf h ht with ⟨hp, -⟩ | ⟨i, c, info, -, hd, -, hfault, hcond⟩
  · exact .inl hp
  · exact .inr ⟨i, hd, instrFaults_advance.1 (hfault.instrFaults hcond)⟩

/-- `FINFO` of a fetch fault is `PC`, which its 32 bits hold. -/
theorem recordExplains_fetchFault (hp : 0x0FFE < s.pc.toNat) : RecordExplains (fetchFault s) := by
  rw [fetchFault_eq]
  exact ⟨rfl, .inl ⟨rfl, hp, rfl, BitVec.toNat_setWidth_of_le (by decide)⟩⟩

/-- `PC` and memory are those of the fetch again, so the record's word is the one they hold (R89, R205). -/
theorem recordExplains_of_step_faulted (h : step s = .next t) (hf : s.faulted = false) (ht : t.faulted = true) :
    RecordExplains t := by
  rcases step_faults hf h ht with ⟨hp, rfl⟩ | ⟨i, c, info, hp, hd, he, hfault, hcond⟩
  · exact recordExplains_fetchFault hp
  · obtain ⟨hencode, -⟩ := encode_eq_and_wellFormed_of_decodeWord hd
    obtain ⟨hmem, -⟩ := exec_keeps he
    have hpc : t.pc = s.pc := hfault.pc.trans (advance_pc_sub_two s)
    have hfetch : t.fetchWord = s.fetchWord := fetchWord_congr hmem hpc
    have hfir : t.faultRec.fir = t.fetchWord := by rw [hfault.fir, hencode, hfetch]
    exact ⟨hfault.fpc.trans hfault.pc.symm, .inr ⟨hpc ▸ hp, hfir, i, hfetch ▸ hd, hcond⟩⟩

end

/-- Settles O17: an instruction faults when its condition holds, and the condition that a fault left in the record is
the one of the state before it. -/
theorem faultsAreTheTable : Obligations.FaultsAreTheTable := fun _ _ hf h =>
  ⟨⟨cycleFaults_of_step_faulted h hf, step_faulted_of_cycleFaults h hf⟩, recordExplains_of_step_faulted h hf⟩

/-- Settles O19: the fetch check comes before the decoder, and the range check of `DXYN` before its first pixel. -/
theorem faultPriority : Obligations.FaultPriority := by
  refine fun s t hf h => ⟨fun hp => ?_, fun hp x y n hd hm => ?_⟩
  · cases (step_of_fetchOutOfRange hf hp).symm.trans h; rfl
  · have hadv : ¬ s.advance.spriteInMemory n := hm
    rw [step_of_decode hf hp hd, exec_drw_of_not_inMemory hadv] at h
    cases h
    rw [endCycle_faultRec]; rfl

/-! ### Toggling on a sink that refuses no pixel (R225) -/

section
variable {k : Sink} {s : State} {x y : Reg} {n : Nat}

/-- What a draw does on a sink that refuses no pixel, when `P` names the pixels of the grid that the sink uses for the
sprite and it uses none twice: it completes, complements them, and the flag reports one that was on. -/
theorem exec_drw_of_not_strict {P : Nat → Nat → Prop} (hsink : s.sink = k) (hk : k ≠ .strict)
    (hm : s.spriteInMemory n) (hn : ((s.drawPixels x y n).filterMap k.cell).Nodup)
    (hP : ∀ px py, (px, py) ∈ (s.drawPixels x y n).filterMap k.cell ↔ P px py) :
    ∃ t, exec (.drw x y n) s = .next t ∧ Complements P s.fb t.fb ∧
      ((∃ px py, P px py ∧ s.fb.pixel px py = true) → t.getV 15 = 1) ∧
      ((¬ ∃ px py, P px py ∧ s.fb.pixel px py = true) → t.getV 15 = 0) ∧
      KeepsVBut 15 s t ∧ t.index = s.index ∧ t.pc = s.pc ∧ KeepsStack s t ∧ t.dt = s.dt ∧ t.rndIn = s.rndIn ∧
      Quiet s t := by
  obtain ⟨c, hplot, hfb, hcoll, -⟩ := plot_done k (s.drawPixels x y n) ⟨s.fb, false, false⟩ (fun h => absurd h hk) hn
  have he : exec (.drw x y n) s = .next (s.drawn c) := exec_drw_of_done hm (by rw [hsink]; exact hplot)
  have hshown : (s.drawn c).fb = c.fb := show_fb s c
  simp only [Bool.false_eq_true, false_or, Prod.exists, hP] at hcoll
  refine ⟨s.drawn c, he, fun px py hx hy => ?_, fun h => drawn_flag_of_collided (hcoll.2 h),
    fun h => drawn_flag_of_not_collided (mt hcoll.1 h), keepsVBut_drawn, show_index s c, show_pc s c, keepsStack_drawn,
    show_dt s c, show_rndIn s c, quiet_of_exec he (show_faultRec s c)⟩
  rw [hshown, hfb px py hx hy]
  exact ⟨fun hp => if_pos ((hP px py).2 hp), fun hp => if_neg (mt (hP px py).1 hp)⟩

/-! ### The pixels each of them uses -/

/-- The ignore sink uses a pixel for itself on the grid, and none off it. -/
theorem cell_ignore_eq_some {p q : Nat × Nat} : Sink.ignore.cell p = some q ↔ GridPixel p.1 p.2 ∧ p = q := by
  simp [Sink.cell, onGrid_iff]

theorem mem_cells_ignore (px py : Nat) :
    (px, py) ∈ (s.drawPixels x y n).filterMap Sink.ignore.cell ↔ GridPixel px py ∧ s.spriteAt x y n px py := by
  simp only [List.mem_filterMap, cell_ignore_eq_some]
  constructor
  · rintro ⟨_, hp, hg, rfl⟩
    exact ⟨hg, mem_drawPixels.1 hp⟩
  · rintro ⟨hg, hp⟩
    exact ⟨_, mem_drawPixels.2 hp, hg, rfl⟩

theorem nodup_cells_ignore : ((s.drawPixels x y n).filterMap Sink.ignore.cell).Nodup :=
  (drawPixels_nodup s x y n).filterMap fun _ _ _ hp hq =>
    (cell_ignore_eq_some.1 hp).2.trans (cell_ignore_eq_some.1 hq).2.symm

theorem mem_cells_wrap (px py : Nat) :
    (px, py) ∈ (s.drawPixels x y n).filterMap Sink.wrap.cell ↔
      ∃ qx qy, s.spriteAt x y n qx qy ∧ qx % 64 = px ∧ qy % 32 = py := by
  simp [Sink.cell, mem_drawPixels]

/-- A sprite is 8 columns wide and at most 15 rows high, so no two of its pixels meet modulo 64 and modulo 32. -/
theorem spriteAt_eq_of_mod_eq (hn : n ≤ 15) {px py qx qy : Nat} (hp : s.spriteAt x y n px py)
    (hq : s.spriteAt x y n qx qy) (hx : px % 64 = qx % 64) (hy : py % 32 = qy % 32) : px = qx ∧ py = qy := by
  obtain ⟨r, c, hr, ⟨hc, -⟩, rfl, rfl⟩ := hp
  obtain ⟨r', c', hr', ⟨hc', -⟩, rfl, rfl⟩ := hq
  omega

theorem nodup_cells_wrap (hn : n ≤ 15) : ((s.drawPixels x y n).filterMap Sink.wrap.cell).Nodup := by
  have hcells : (s.drawPixels x y n).filterMap Sink.wrap.cell =
      (s.drawPixels x y n).map fun p => (p.1 % 64, p.2 % 32) :=
    congrFun List.filterMap_eq_map' _
  rw [hcells]
  refine (drawPixels_nodup s x y n).map_on fun p hp q hq hpq => ?_
  obtain ⟨hx, hy⟩ := Prod.mk.inj hpq
  obtain ⟨hpx, hpy⟩ := spriteAt_eq_of_mod_eq hn (mem_drawPixels.1 hp) (mem_drawPixels.1 hq) hx hy
  exact Prod.ext hpx hpy

end

/-- The statement about the ignore sink meets a sprite across the edge of the grid: glyph 0 of the font at column 62 has
a set bit on the grid and one off it. -/
theorem exists_sprite_across_edge_on_ignore :
    ∃ s : State, s.sink = .ignore ∧ s.spriteInMemory 1 ∧ s.spriteAt 0 1 1 63 0 ∧ GridPixel 63 0 ∧
      s.spriteAt 0 1 1 64 0 ∧ ¬ GridPixel 64 0 :=
  ⟨{ State.reset.setV 0 62 with sink := .ignore }, rfl, .inr (by decide), ⟨0, 1, by decide, ⟨by decide, rfl⟩, rfl, rfl⟩,
    ⟨by decide, by decide⟩, ⟨0, 2, by decide, ⟨by decide, rfl⟩, rfl, rfl⟩, fun h => absurd h.1 (by decide)⟩

/-- Settles O47: the pixels this sink uses are the sprite's own on the grid, where the premise of being on it is met. -/
theorem drawOnIgnoringSink : Obligations.DrawOnIgnoringSink := by
  intro x y n s hsink hm
  obtain ⟨t, he, hfb, hone, hzero, hframe⟩ :=
    exec_drw_of_not_strict hsink (by decide) hm nodup_cells_ignore mem_cells_ignore
  simp only [and_assoc] at hone hzero
  refine ⟨t, he, fun px py hx hy => ?_, hone, hzero, hframe⟩
  have hg : GridPixel px py := ⟨Nat.le_of_lt_succ hx, Nat.le_of_lt_succ hy⟩
  obtain ⟨hin, hout⟩ := hfb px py hx hy
  exact ⟨fun hp => hin ⟨hg, hp⟩, fun hp => hout fun h => hp h.2⟩

/-- Settles O48: no two pixels of a sprite share a pixel of this sink, so each that it uses is complemented once. -/
theorem drawOnWrappingSink : Obligations.DrawOnWrappingSink := by
  intro x y n s hsink hn hm
  obtain ⟨t, he, hfb, hone, hzero, hframe⟩ :=
    exec_drw_of_not_strict hsink (by decide) hm (nodup_cells_wrap hn) mem_cells_wrap
  have hon : (∃ px py, (∃ qx qy, s.spriteAt x y n qx qy ∧ qx % 64 = px ∧ qy % 32 = py) ∧ s.fb.pixel px py = true) ↔
      ∃ qx qy, s.spriteAt x y n qx qy ∧ s.fb.pixel (qx % 64) (qy % 32) = true := by
    constructor
    · rintro ⟨_, _, ⟨qx, qy, hq, rfl, rfl⟩, h⟩
      exact ⟨qx, qy, hq, h⟩
    · rintro ⟨qx, qy, hq, h⟩
      exact ⟨_, _, ⟨qx, qy, hq, rfl, rfl⟩, h⟩
  rw [hon] at hone hzero
  exact ⟨t, he, hfb, hone, hzero, hframe⟩

/-! ### The reset event and the launch (R231, R250, R255) -/

/-- The invariant asks no more of the state after a reset event than canonical memory, the core being at its reset
values. -/
theorem inv_coreReset {s : State} (hmem : s.mem.wf) : Inv (coreReset s) :=
  have hstack : StackInv (coreReset s) := resetMeetsInvariant.stackInv.congr rfl rfl
  hstack.inv hmem resetMeetsInvariant.pc rfl (fun _ => rfl) fun h => absurd h Bool.false_ne_true

/-- A launch state's core is at its reset values, so a reset event there changes nothing. -/
theorem coreReset_launch (font program : List Byte) : coreReset (launch font program) = launch font program :=
  rfl

/-- Settles O54: the loader keeps memory canonical, and the launch state is its own reset. -/
theorem launchMeetsInvariant : Obligations.LaunchMeetsInvariant := fun font program => by
  rw [← coreReset_launch]
  exact inv_coreReset (launch_mem_wf font program)

/-- Settles O7: each element of core state is that of `State.reset`, and the rest is not written. -/
theorem resetEventRestoresCore : Obligations.ResetEventRestoresCore := fun _ =>
  ⟨reset_getV, rfl, rfl, rfl, reset_slot, rfl, rfl, rfl, fun _ => rfl, rfl, rfl, rfl, rfl, rfl, rfl⟩

/-- Settles O56: the record is cleared and memory stays canonical. -/
theorem resetEventKeepsInvariant : Obligations.ResetEventKeepsInvariant := fun _ hs =>
  ⟨inv_coreReset hs.mem, rfl⟩

end Sys2Proof.Machine
